-- ==== Sys2Proof/Word.lean ====
section
/-! DEFINITION. The width parameters of R5, the types of the IR pulse codec's registers and ports made from them (log 13), and the
small closed sets of names the spec uses: entry kinds, the protocol tag, the sequencing states of the two units, stream entries. -/

namespace Sys2Proof

/-- `DUR_WIDTH`, a parameter of the block with the value R5 decides; at least 12 (D4, U14). -/
abbrev Config.durWidth : Nat := 16

/-- `LEN_WIDTH`, a parameter of the block with the value R5 decides; at least 7 (D5). -/
abbrev Config.lenWidth : Nat := 8

/-- One duration in microseconds (R41). -/
abbrev Dur := BitVec Config.durWidth

/-- A sequence length or an entry index (R12, R14). -/
abbrev Len := BitVec Config.lenWidth

/-- The coded number, `VALUE_WIDTH` = 32 bits, fixed (R5, D6, R13). -/
abbrev Value := BitVec 32

/-- A bit count, `BITCOUNT_WIDTH` = 6 bits (R5, D6, R15, R20). -/
abbrev BitCount := BitVec 6

/-- A carrier frequency in kHz, `FREQ_WIDTH` = 8 bits (R5, D19, R20). -/
abbrev Khz := BitVec 8

/-- The kind of a stream entry (R72): a mark is "on", a space is "off" (R9). -/
inductive Kind where
  | space
  | mark
deriving DecidableEq, Repr

/-- The protocol tag has one value (R71). -/
inductive ProtocolTag where
  | milestag
deriving DecidableEq, Repr

/-- The decoder's sequencing states, R11, in the order of its table. -/
inductive DState where
  /-- `D_IDLE` -/
  | idle
  /-- `D_EXPECT_HEADER` -/
  | expectHeader
  /-- `D_EXPECT_SPACE` -/
  | expectSpace
  /-- `D_EXPECT_MARK` -/
  | expectMark
  /-- `D_SUCCESS` -/
  | success
  /-- `D_ERR_HEADER_MARK` -/
  | errHeaderMark
  /-- `D_ERR_DATA_SPACE` -/
  | errDataSpace
  /-- `D_ERR_DATA_MARK` -/
  | errDataMark
  /-- `D_FAULT_BOUNDS` -/
  | faultBounds
  /-- `D_FAULT_CAPACITY` -/
  | faultCapacity
deriving DecidableEq, Repr

/-- The encoder's sequencing states, R19, in the order of its table. -/
inductive EState where
  /-- `E_IDLE` -/
  | idle
  /-- `E_EMIT_HEADER` -/
  | emitHeader
  /-- `E_EMIT_SPACE` -/
  | emitSpace
  /-- `E_EMIT_MARK` -/
  | emitMark
  /-- `E_DONE` -/
  | done
  /-- `E_FAULT_RANGE` -/
  | faultRange
deriving DecidableEq, Repr

/-- How a DECODE can fail (R150): the source's three errors and the spec's two faults of the decoder. -/
inductive DecFailure where
  | headerMarkError
  | dataSpaceError
  | dataMarkError
  | boundsFault
  | capacityFault
deriving DecidableEq, Repr

/-- The expected nominal duration an error carries, as the source names it (R73): for DataMarkError it is the symbolic alternative
"either 1200 or 600". -/
inductive ExpectedDuration where
  | headerMarkDuration
  | interBitSpaceDuration
  | oneOrZeroBitDuration
deriving DecidableEq, Repr

/-- One entry of the output stream, the pair `(kind, dur)` of R72. -/
structure StreamEntry where
  kind : Kind
  dur : Dur
deriving DecidableEq, Repr

end Sys2Proof
end

