-- ==== Sys2Proof/Config.lean ====
section
/-! DEFINITION. What is fixed for the block: the constant record of R26, the limits of R5, and the open parameters (the tolerance,
the numeric code of the protocol tag, what a buffer entry holds that the host has not filled). An open parameter has no body, so
nothing can be proved from its value. -/

namespace Sys2Proof

/-- toleranceFraction as the rational `TOL_NUM / TOL_DEN` (R5, R26, D7). -/
structure Tolerance where
  /-- `TOL_NUM` -/
  num : Nat
  /-- `TOL_DEN` -/
  den : Nat
deriving DecidableEq, Repr

/-- The range R5 gives the parameter: `0 <= TOL_NUM < TOL_DEN`, hence `TOL_DEN > 0`. -/
abbrev Tolerance.Valid (t : Tolerance) : Prop := t.num < t.den

namespace Config

/-- `HDR_MARK`, headerMarkDuration (R5, R26). -/
def hdrMark : Dur := 2400

/-- `SPACE`, interBitSpaceDuration (R5, R26). -/
def space : Dur := 600

/-- `ONE_MARK`, oneBitMarkDuration (R5, R26). -/
def oneMark : Dur := 1200

/-- `ZERO_MARK`, zeroBitMarkDuration (R5, R26). -/
def zeroMark : Dur := 600

/-- `MAX_BITS` (R5: equal to `VALUE_WIDTH`). -/
def maxBits : Nat := 32

/-- `DEFAULT_KHZ` (R5): what a script's ENCODE line takes when it names no frequency (R75). No step reads it (R138). -/
def defaultKhz : Khz := 38

/-- `TOL_NUM`, an OPEN parameter (R5, D7, log 1). -/
opaque tolNum : Nat

/-- `TOL_DEN - TOL_NUM - 1`, an OPEN parameter (R5, D7, log 1). -/
opaque tolGap : Nat

/-- The block's tolerance. Every pair with `TOL_NUM < TOL_DEN` is of this form and every value of this form is such a pair. -/
def tolerance : Tolerance := ⟨tolNum, tolNum + tolGap + 1⟩

/-- `TAG_MILESTAG`, the numeric code of the tag, an OPEN parameter (R5, R16, R71, D10, log 3). -/
opaque tagMilestag : Nat

/-- What the host's buffer answers for an entry that has not been filled since power-on (R28 "unspecified", log 2). -/
opaque unfilledEntry : Nat → Dur

end Config

end Sys2Proof
end

