-- ==== Sys2Proof/Syntax.lean ====
section
/-! DEFINITION. The operations of the block, one constructor per row of the opcode table (R60). -/

namespace Sys2Proof

/-- The complete operation list of R60: two commands, eleven micro-operations, one primitive, four wire symbols. -/
inductive Instr where
  /-- `DECODE`, R61 and R100: `ih` skips the header check, `len` counts the entries. -/
  | decode (ih : Bool) (len : Len)
  /-- `ENCODE`, R62 and R130. -/
  | encode (value : Value) (bits : BitCount) (khz : Khz)
  /-- `D.START`, R101. -/
  | dStart
  /-- `D.HEADER`, R102. -/
  | dHeader
  /-- `D.SPACE`, R103. -/
  | dSpace
  /-- `D.MARK`, R104. -/
  | dMark
  /-- `D.FINISH`, R105. -/
  | dFinish
  /-- `D.HOLD`, R106. -/
  | dHold
  /-- `E.START`, R131. -/
  | eStart
  /-- `E.HEADER`, R132. -/
  | eHeader
  /-- `E.SPACE`, R133. -/
  | eSpace
  /-- `E.MARK`, R134. -/
  | eMark
  /-- `E.HOLD`, R135. -/
  | eHold
  /-- `MATCH`, R90: a measured duration and a nominal one. -/
  | matchDur (m nom : Dur)
  /-- `HDR`, R65. -/
  | hdr
  /-- `SP`, R65. -/
  | sp
  /-- `ONE`, R65. -/
  | one
  /-- `ZERO`, R65. -/
  | zero
deriving DecidableEq, Repr

end Sys2Proof
end

