-- ==== Sys2Proof/WellFormed.lean ====
section
/-! DEFINITION. Which terms of `Instr` the spec admits. Widths are in the types, so the one check left is MATCH's second operand. -/

namespace Sys2Proof

/-- The nominal durations: one of `HDR_MARK`, `SPACE`, `ONE_MARK`, `ZERO_MARK` (R9, R90). -/
def isNominal (nom : Dur) : Bool :=
  nom == Config.hdrMark || nom == Config.space || nom == Config.oneMark || nom == Config.zeroMark

/-- The check of an instruction: MATCH takes a nominal duration (R90). ENCODE with `bits > 32` is well formed: the spec gives that
encoding a meaning, EncodeRangeFault (R74). -/
def Instr.wf : Instr → Bool
  | .decode _ _ => true
  | .encode _ _ _ => true
  | .dStart => true
  | .dHeader => true
  | .dSpace => true
  | .dMark => true
  | .dFinish => true
  | .dHold => true
  | .eStart => true
  | .eHeader => true
  | .eSpace => true
  | .eMark => true
  | .eHold => true
  | .matchDur _ nom => isNominal nom
  | .hdr => true
  | .sp => true
  | .one => true
  | .zero => true

/-- An instruction the spec admits. -/
abbrev Instr.WellFormed (i : Instr) : Prop := i.wf = true

end Sys2Proof
end

