-- ==== Sys2Proof/Decode.lean ====
section
/-! DEFINITION. From words to instructions and back (R63, R72), and from a unit's sequencing state to its micro-operation (R107,
R135). A command word has no opcode bits: the port it is given on tells it apart (R63), so a word carries its port. -/

namespace Sys2Proof

/-- A packed word with the port it is given on: the decoder's command port (9 bits at `LEN_WIDTH` = 8), the encoder's (46 bits), or the
stream (17 bits at `DUR_WIDTH` = 16). -/
inductive HostWord where
  /-- DECODE word `{ih, len[7:0]}` (R63). -/
  | decCommand (w : BitVec (Config.lenWidth + 1))
  /-- ENCODE word `{khz[7:0], bits[5:0], value[31:0]}` (R63). -/
  | encCommand (w : BitVec 46)
  /-- Stream-entry word `{kind, dur[15:0]}` (R72). -/
  | streamEntry (w : BitVec (Config.durWidth + 1))
deriving DecidableEq, Repr

/-- Why a word is no instruction. -/
inductive DecodeError where
  /-- A stream-entry word that is none of the four wire symbols (R72: "The encoder only ever emits the four entries"). -/
  | notASymbol
deriving DecidableEq, Repr

/-- The `kind` bit of R72: 1 = mark, 0 = space. -/
def Kind.bit : Kind → BitVec 1
  | .space => 0
  | .mark => 1

/-- The word of a stream entry, `{kind, dur[15:0]}` (R72). -/
def StreamEntry.pack (e : StreamEntry) : BitVec (Config.durWidth + 1) := BitVec.cons (e.kind = .mark) e.dur

/-- Decoding of a stream-entry word, `kind` in its top bit and `dur` below it: the four entries of R72 and nothing else. -/
def decodeStreamEntry (w : BitVec (Config.durWidth + 1)) : Except DecodeError Instr :=
  match w.getLsbD Config.durWidth, (w.extractLsb' 0 Config.durWidth).toNat with
  | true, 2400 => .ok .hdr
  | false, 600 => .ok .sp
  | true, 1200 => .ok .one
  | true, 600 => .ok .zero
  | _, _ => .error .notASymbol

/-- The decoder of packed words, total on every word of every port (R63, R72). -/
def decodeWord : HostWord → Except DecodeError Instr
  | .decCommand w => .ok (.decode (w.getLsbD Config.lenWidth) (w.extractLsb' 0 Config.lenWidth))
  | .encCommand w => .ok (.encode (w.extractLsb' 0 32) (w.extractLsb' 32 6) (w.extractLsb' 38 8))
  | .streamEntry w => decodeStreamEntry w

/-- The packed word of an instruction, where the spec gives it one (R63, R72). A micro-operation is selected by state and MATCH is a
primitive: neither has a word (R60, R90). -/
def encodeWord : Instr → Option HostWord
  | .decode ih len => some (.decCommand (BitVec.cons ih len))
  | .encode value bits khz => some (.encCommand (khz ++ bits ++ value))
  | .dStart => none
  | .dHeader => none
  | .dSpace => none
  | .dMark => none
  | .dFinish => none
  | .dHold => none
  | .eStart => none
  | .eHeader => none
  | .eSpace => none
  | .eMark => none
  | .eHold => none
  | .matchDur _ _ => none
  | .hdr => some (.streamEntry (StreamEntry.pack ⟨.mark, Config.hdrMark⟩))
  | .sp => some (.streamEntry (StreamEntry.pack ⟨.space, Config.space⟩))
  | .one => some (.streamEntry (StreamEntry.pack ⟨.mark, Config.oneMark⟩))
  | .zero => some (.streamEntry (StreamEntry.pack ⟨.mark, Config.zeroMark⟩))

/-- The abbreviation `SHOT v` of the scripts: 14 bits at the default carrier (R76). -/
def shot (v : Value) : Instr := .encode v 14 Config.defaultKhz

/-- The abbreviation `MESSAGE v` of the scripts: 24 bits at the default carrier (R76). -/
def message (v : Value) : Instr := .encode v 24 Config.defaultKhz

/-- The decoder's micro-operation, the table of R107: `start` is `dec_start`. -/
def selectDec (d_state : DState) (start : Bool) (offset d_len : Len) : Instr :=
  match d_state with
  | .expectHeader => .dHeader
  | .expectSpace => if offset.toNat < d_len.toNat then .dSpace else .dFinish
  | .expectMark => .dMark
  | .idle | .success | .errHeaderMark | .errDataSpace | .errDataMark | .faultBounds | .faultCapacity =>
    if start then .dStart else .dHold

/-- The encoder's micro-operation, the table of R135: `start` is `enc_start`. -/
def selectEnc (e_state : EState) (start : Bool) : Instr :=
  match e_state with
  | .emitHeader => .eHeader
  | .emitSpace => .eSpace
  | .emitMark => .eMark
  | .idle | .done | .faultRange => if start then .eStart else .eHold

/-- A width in whole bytes, in bits. -/
def wholeBytes (n : Nat) : Nat := (n + 7) / 8 * 8

/-- The packed word a row of the opcode table stands for: the number of bits in whole bytes names the port (9 bits are 16, 17 bits are
24, 46 bits are 48 at the widths of R5; the exact widths are taken too), and the bits above the word are 0. Rows without an encoding
have no word (log 13). -/
def tableWord (nbits w : Nat) : Option HostWord :=
  let dec := Config.lenWidth + 1
  let stream := Config.durWidth + 1
  if nbits = dec ∨ nbits = wholeBytes dec then
    if w < 2 ^ dec then some (.decCommand (BitVec.ofNat dec w)) else none
  else if nbits = stream ∨ nbits = wholeBytes stream then
    if w < 2 ^ stream then some (.streamEntry (BitVec.ofNat stream w)) else none
  else if nbits = 46 ∨ nbits = wholeBytes 46 then
    if w < 2 ^ 46 then some (.encCommand (BitVec.ofNat 46 w)) else none
  else none

/-- The instruction read from a word numbered as the opcode table numbers it. -/
def decodeTableWord (nbits w : Nat) : Option Instr :=
  match tableWord nbits w with
  | some hw =>
    match decodeWord hw with
    | .ok i => some i
    | .error _ => none
  | none => none

end Sys2Proof
end

