-- ==== Sys2Proof/Machine/State.lean ====
section
/-! DEFINITION. The state of the machine as plain data: the registers of the two units (R11 to R15, R19, R20), the input ports (R18,
R21, R180), the pulse buffer (R41), the output stream's record (R23), the block's tolerance (R26), and the host's coming actions. -/

namespace Sys2Proof.Machine

/-- The decoder's registers, 10_state.md section 2. -/
structure DecRegs where
  /-- `d_state` (R11) -/
  state : DState
  /-- `offset` (R12) -/
  offset : Len
  /-- `value` (R13) -/
  value : Value
  /-- `d_ih` (R14) -/
  ih : Bool
  /-- `d_len` (R14) -/
  len : Len
  /-- `r_value` (R15) -/
  rValue : Value
  /-- `r_bitcount` (R15) -/
  rBitcount : BitCount
  /-- `r_expected` (R15) -/
  rExpected : Dur
deriving DecidableEq, Repr

/-- The encoder's registers, 10_state.md section 3. -/
structure EncRegs where
  /-- `e_state` (R19) -/
  state : EState
  /-- `e_value` (R20) -/
  value : Value
  /-- `e_remaining` (R20) -/
  remaining : BitCount
  /-- `e_freq` (R20) -/
  freq : Khz
deriving DecidableEq, Repr

/-- The levels on the block's input ports (R18, R21, R180). `buf_data` is the pulse buffer's answer and is not held here. -/
structure Inputs where
  rst : Bool
  decStart : Bool
  decIgnoreHeader : Bool
  decSeqLen : Len
  encStart : Bool
  encValue : Value
  encBitcount : BitCount
  encFreqKhz : Khz
deriving DecidableEq, Repr

/-- The pulse buffer (R41): the filled entries by index, indices strictly rising, at most one entry for an index. An index that is not
listed has not been filled. The entry is the smallest unit there is (R45). -/
abbrev PulseBuffer := List (Nat × Dur)

/-- Which units take their step (R165: "either may step while the other steps or rests, in any interleaving"). -/
inductive Moves where
  | dec
  | enc
  | both
deriving DecidableEq, Repr

/-- What the host does next (R10 c; the script lines of R75). -/
inductive HostAction where
  /-- Drives the input ports for one step, in which the named units move. -/
  | drive (p : Inputs) (m : Moves)
  /-- Gives a packed word: a command (R63), carried out whole, or a stream entry (R72). -/
  | word (w : HostWord)
  /-- The capture driver writes one entry of the buffer (R41). -/
  | store (i : Len) (d : Dur)
  /-- The script line `BUF`: the buffer now holds this sequence, entry 0 first (R75). The line's name is dropped: there is one buffer,
  which the line overwrites (DESIGN CHOICE, log 4). -/
  | buf (entries : List Dur)
  /-- The script line `CAPTURE`: the buffer now holds a gap entry and the durations of the last frame (R75); its name is dropped as
  that of `BUF` is (log 4). -/
  | capture (gap : Dur)
deriving DecidableEq, Repr

/-- Everything the spec gives the machine, with the host's coming actions. -/
structure State where
  /-- The decoder DEC. -/
  dec : DecRegs
  /-- The encoder ENC. -/
  enc : EncRegs
  /-- `TOL_NUM / TOL_DEN`, fixed for the block and never written (R26, log 1). -/
  tol : Tolerance
  /-- The input ports. -/
  ports : Inputs
  /-- The pulse buffer, owned by the host (R41). -/
  buf : PulseBuffer
  /-- `tx_log`: the entries emitted since reset, oldest first (R23). -/
  txLog : List StreamEntry
  /-- The model's own record: what a MATCH run on its own answered (R90, log 6). -/
  matchAnswer : Option Bool
  /-- The model's own list: what the host does in the coming steps, the next one first (log 4). -/
  script : List HostAction
deriving DecidableEq, Repr

/-- Why the machine stops with a fault. -/
inductive Fault where
  /-- Raised by E.MARK with `e_remaining` = 0: the bit `e_value[e_remaining - 1]` does not exist (R134 "at least 1"). Safe: the model
  stops, in a state that no run reaches (log 8). -/
  | noBitLeft
deriving DecidableEq, Repr

/-- Why the machine gives no next state. -/
inductive Refusal where
  /-- Raised by `exec` for an instruction without a meaning, by its mnemonic. Safe. -/
  | notModelled (mnemonic : String)
  /-- Raised by a micro-operation asked for in a state that does not select it (R60, R107, R135). Safe (log 7). -/
  | notSelected
  /-- Raised by the host's actions `store`, `buf`, `capture` that would write an entry below `d_len` while the decoder scans: the
  contract of R48 and R185 is broken and the run is outside the spec (U2 "refuse"). Safe. -/
  | bufferContract
  /-- Raised by the host's action `word` for a stream word that is no wire symbol (R72). Safe (log 9). -/
  | undecodableWord
deriving DecidableEq, Repr

/-- The decoder after reset (R28). -/
def DecRegs.reset : DecRegs :=
  { state := .idle, offset := 0, value := 0, ih := false, len := 0, rValue := 0, rBitcount := 0, rExpected := 0 }

/-- The encoder after reset (R28). -/
def EncRegs.reset : EncRegs :=
  { state := .idle, value := 0, remaining := 0, freq := 0 }

/-- The input ports as the host leaves them after reset: nothing is asked for (log 5). -/
def Inputs.quiet : Inputs :=
  { rst := false, decStart := false, decIgnoreHeader := false, decSeqLen := 0,
    encStart := false, encValue := 0, encBitcount := 0, encFreqKhz := 0 }

/-- The machine right after reset (R28, R180). -/
def State.reset : State :=
  { dec := .reset, enc := .reset, tol := Config.tolerance, ports := .quiet, buf := [], txLog := [], matchAnswer := none, script := [] }

end Sys2Proof.Machine
end

