-- ==== Sys2Proof/Machine/Ops.lean ====
section
/-! DEFINITION. The shared operations over memory and registers: reading and writing the pulse buffer (R42, R43), appending to the
output stream (R50), starting an operation (R101, R131), ending one in a failure (R156), and the hardware reset (R180). -/

namespace Sys2Proof

/-- The terminal state of a failure (R150). -/
def DecFailure.terminal : DecFailure → DState
  | .headerMarkError => .errHeaderMark
  | .dataSpaceError => .errDataSpace
  | .dataMarkError => .errDataMark
  | .boundsFault => .faultBounds
  | .capacityFault => .faultCapacity

/-- The expected nominal duration a failure carries; the two faults record nothing (R150). -/
def DecFailure.expected : DecFailure → Option ExpectedDuration
  | .headerMarkError => some .headerMarkDuration
  | .dataSpaceError => some .interBitSpaceDuration
  | .dataMarkError => some .oneOrZeroBitDuration
  | .boundsFault => none
  | .capacityFault => none

/-- The value of the port `dec_expected` for an expected duration (R73): 2400, 600, and 1200 for the symbolic alternative. -/
def ExpectedDuration.portValue : ExpectedDuration → Dur
  | .headerMarkDuration => Config.hdrMark
  | .interBitSpaceDuration => Config.space
  | .oneOrZeroBitDuration => Config.oneMark

end Sys2Proof

namespace Sys2Proof.Machine

/-! ### The pulse buffer -/

/-- Entry `i` if the host has filled it. -/
def PulseBuffer.entry? : PulseBuffer → Nat → Option Dur
  | [], _ => none
  | (j, d) :: rest, i => if j = i then some d else PulseBuffer.entry? rest i

/-- `seq[i]`, that is `MemRead(i, 1)` (R42): one whole entry; an entry the host has not filled answers a free value (log 2). -/
def PulseBuffer.read (b : PulseBuffer) (i : Nat) : Dur :=
  match b.entry? i with
  | some d => d
  | none => Config.unfilledEntry i

/-- The host writes entry `i` (R41); the list stays in its canonical form. -/
def PulseBuffer.write : PulseBuffer → Nat → Dur → PulseBuffer
  | [], i, d => [(i, d)]
  | (j, e) :: rest, i, d =>
    if i < j then (i, d) :: (j, e) :: rest
    else if i = j then (i, d) :: rest
    else (j, e) :: PulseBuffer.write rest i d

/-- The entries of a sequence from index `i` on. -/
def PulseBuffer.ofListFrom : Nat → List Dur → PulseBuffer
  | _, [] => []
  | i, d :: ds => (i, d) :: PulseBuffer.ofListFrom (i + 1) ds

/-- The buffer that holds exactly a sequence, entry 0 first (R8, R43). -/
def PulseBuffer.ofList (ds : List Dur) : PulseBuffer := PulseBuffer.ofListFrom 0 ds

/-- Every index of the list is at least `n` and the indices rise strictly. -/
def PulseBuffer.risesFrom : Nat → PulseBuffer → Bool
  | _, [] => true
  | n, (j, _) :: rest => decide (n ≤ j) && PulseBuffer.risesFrom (j + 1) rest

/-- The canonical form: strictly rising indices. An unlisted index holds no filled entry, so no listed entry equals it. -/
def PulseBuffer.wf (b : PulseBuffer) : Bool := PulseBuffer.risesFrom 0 b

/-! ### Updates of the state -/

/-- The decoder's registers replaced. -/
def State.withDec (s : State) (d : DecRegs) : State := { s with dec := d }

/-- The encoder's registers replaced. -/
def State.withEnc (s : State) (e : EncRegs) : State := { s with enc := e }

/-- The input ports replaced. -/
def State.withPorts (s : State) (p : Inputs) : State := { s with ports := p }

/-- The pulse buffer replaced. -/
def State.withBuf (s : State) (b : PulseBuffer) : State := { s with buf := b }

/-- The record of a MATCH answer replaced. -/
def State.withMatchAnswer (s : State) (r : Bool) : State := { s with matchAnswer := some r }

/-- The host's coming actions replaced. -/
def State.withScript (s : State) (a : List HostAction) : State := { s with script := a }

/-- `emit(kind, dur)` (R50): one entry appended to the output stream. -/
def State.emit (s : State) (kind : Kind) (dur : Dur) : State := { s with txLog := s.txLog ++ [⟨kind, dur⟩] }

/-! ### Failures of a DECODE -/

/-- `raise X(info)` (R156), the one way a DECODE fails: the terminal state, for an error `r_expected`, and nothing else. There is no
return (R160): only the next D.START leaves a terminal state. -/
def DecRegs.raise (d : DecRegs) (x : DecFailure) : DecRegs :=
  match x.expected with
  | some e => { d with state := x.terminal, rExpected := e.portValue }
  | none => { d with state := x.terminal }

/-! ### Starting an operation -/

/-- The registers D.START writes (R101): all of the decoder's, whatever they held. -/
def DecRegs.start (ih : Bool) (len : Len) : DecRegs :=
  { state := if ih then .expectSpace else .expectHeader, offset := 2, value := 0, ih := ih, len := len,
    rValue := 0, rBitcount := 0, rExpected := 0 }

/-- The registers E.START writes (R131): all of the encoder's, whatever they held; EncodeRangeFault for more than 32 bits (R157). -/
def EncRegs.start (value : Value) (bits : BitCount) (khz : Khz) : EncRegs :=
  { state := if bits.toNat > Config.maxBits then .faultRange else .emitHeader, value := value, remaining := bits, freq := khz }

/-! ### Hardware reset -/

/-- A step with `rst` = 1 (R180): every register at its value of R28, `tx_log` empty; the input ports, the pulse buffer and the
constants are not touched. -/
def State.hardReset (s : State) : State :=
  { s with dec := .reset, enc := .reset, txLog := [], matchAnswer := none }

end Sys2Proof.Machine
end

