-- ==== Sys2Proof/Machine/Operands.lean ====
section
/-! DEFINITION. The operand forms: the duration matcher (R91) and its window (R92), the mark classifier (R93), the bit appended to
`value` (R66), the bit count (R108), the bit the encoder sends next (R20), the wire symbols (R65). -/

namespace Sys2Proof.Machine

/-- `|a - b|` on naturals (R6). -/
def absDiff (a b : Nat) : Nat := (a - b) + (b - a)

/-- `MATCH(m, nom)` (R91): `TOL_DEN * |m - nom| <= TOL_NUM * nom`, on exact naturals. -/
def matchDuration (t : Tolerance) (m nom : Dur) : Bool :=
  decide (t.den * absDiff m.toNat nom.toNat ≤ t.num * nom.toNat)

/-- `lo(nom) = ceil(nom * (TOL_DEN - TOL_NUM) / TOL_DEN)` (R92). -/
def windowLo (t : Tolerance) (nom : Nat) : Nat := (nom * (t.den - t.num) + (t.den - 1)) / t.den

/-- `hi(nom) = floor(nom * (TOL_DEN + TOL_NUM) / TOL_DEN)` (R92). -/
def windowHi (t : Tolerance) (nom : Nat) : Nat := nom * (t.den + t.num) / t.den

/-- `CLASSIFY_MARK(m)` (R93), `ONE` first: the bit, or none for NoSymbol. -/
def classifyMark (t : Tolerance) (m : Dur) : Option Bool :=
  if matchDuration t m Config.oneMark then some true
  else if matchDuration t m Config.zeroMark then some false
  else none

/-- `(value << 1) | b` (R66, R104). -/
def appendBit (v : Value) (b : Bool) : Value := (v <<< 1) ||| (if b then 1 else 0)

/-- `(offset - 3) div 2`, the bits already held when a mark is looked at (R104). -/
def bitsHeld (offset : Len) : Nat := (offset.toNat - 3) / 2

/-- `(offset - 1) div 2`, the bit count of the finished scan (R105, R108). -/
def scanBitCount (offset : Len) : BitCount := BitVec.ofNat 6 ((offset.toNat - 1) / 2)

/-- `e_value[e_remaining - 1]`, the next bit to send (R20, R134). -/
def EncRegs.nextBit (e : EncRegs) : Bool := e.value.getLsbD (e.remaining.toNat - 1)

/-- The wire symbols (R65). -/
inductive Symbol where
  | hdr
  | sp
  | one
  | zero
deriving DecidableEq, Repr

/-- The stream entry of a symbol: its kind and its nominal duration exactly (R65, R72). -/
def Symbol.entry : Symbol → StreamEntry
  | .hdr => ⟨.mark, Config.hdrMark⟩
  | .sp => ⟨.space, Config.space⟩
  | .one => ⟨.mark, Config.oneMark⟩
  | .zero => ⟨.mark, Config.zeroMark⟩

/-- Reception: a buffer entry tried against a symbol is taken for it when MATCH holds (R65). -/
def Symbol.takes (t : Tolerance) (x : Symbol) (m : Dur) : Bool := matchDuration t m x.entry.dur

/-- The mark symbol of a data bit (R64). -/
def Symbol.ofBit (b : Bool) : Symbol := if b then .one else .zero

/-- Emission of a wire symbol (R65, R50). -/
def State.emitSymbol (s : State) (x : Symbol) : State := s.emit x.entry.kind x.entry.dur

end Sys2Proof.Machine
end

