-- ==== Sys2Proof/Machine/Flags.lean ====
section
/-! DEFINITION. The status flags and the output ports that are functions of the registers alone (R17, R22, R69, R70), and what a unit
reads or offers in the step it takes from its registers (R49, R50). The ports of a step of the block are in Ports.lean. -/

namespace Sys2Proof

/-- A scanning state (R11). -/
def DState.scanning : DState → Bool
  | .expectHeader | .expectSpace | .expectMark => true
  | .idle | .success | .errHeaderMark | .errDataSpace | .errDataMark | .faultBounds | .faultCapacity => false

/-- A terminal state (R11). -/
def DState.terminal : DState → Bool
  | .success | .errHeaderMark | .errDataSpace | .errDataMark | .faultBounds | .faultCapacity => true
  | .idle | .expectHeader | .expectSpace | .expectMark => false

/-- The code of `d_state` (R69). -/
def DState.statusCode : DState → BitVec 3
  | .idle | .expectHeader | .expectSpace | .expectMark => 0
  | .success => 1
  | .errHeaderMark => 2
  | .errDataSpace => 3
  | .errDataMark => 4
  | .faultBounds => 5
  | .faultCapacity => 6

/-- An emitting state (R19). -/
def EState.emitting : EState → Bool
  | .emitHeader | .emitSpace | .emitMark => true
  | .idle | .done | .faultRange => false

/-- A terminal state (R19). -/
def EState.terminal : EState → Bool
  | .done | .faultRange => true
  | .idle | .emitHeader | .emitSpace | .emitMark => false

/-- The code of `e_state` (R70). -/
def EState.statusCode : EState → BitVec 2
  | .idle | .emitHeader | .emitSpace | .emitMark => 0
  | .done => 1
  | .faultRange => 2

end Sys2Proof

namespace Sys2Proof.Machine

/-! ### The decoder's ports, R17 -/

/-- `dec_busy` -/
def DecRegs.busy (d : DecRegs) : Bool := d.state.scanning

/-- `dec_done` -/
def DecRegs.done (d : DecRegs) : Bool := d.state.terminal

/-- `dec_status` -/
def DecRegs.status (d : DecRegs) : BitVec 3 := d.state.statusCode

/-- `dec_tag`: `TAG_MILESTAG` on success, else 0 (R16, R17). -/
def DecRegs.tag (d : DecRegs) : Nat := if d.state = .success then Config.tagMilestag else 0

/-- What the decoder drives `buf_addr` with in the step it takes from these registers: the index read, 0 where it reads none (R49). -/
def DecRegs.bufAddr (d : DecRegs) : Len :=
  match d.state with
  | .expectHeader => if d.len.toNat < 2 then 0 else 1
  | .expectSpace | .expectMark => if d.offset.toNat < d.len.toNat then d.offset else 0
  | .idle | .success | .errHeaderMark | .errDataSpace | .errDataMark | .faultBounds | .faultCapacity => 0

/-- The decoder's output ports that are stable between steps (R17). -/
structure DecOutputs where
  busy : Bool
  done : Bool
  status : BitVec 3
  value : Value
  bitcount : BitCount
  tag : Nat
  expected : Dur
  offset : Len
deriving DecidableEq, Repr

/-- The values of R17's table. -/
def DecRegs.outputs (d : DecRegs) : DecOutputs :=
  { busy := d.busy, done := d.done, status := d.status, value := d.rValue, bitcount := d.rBitcount, tag := d.tag,
    expected := d.rExpected, offset := d.offset }

/-! ### The encoder's ports, R22 -/

/-- `enc_busy` -/
def EncRegs.busy (e : EncRegs) : Bool := e.state.emitting

/-- `enc_done` -/
def EncRegs.done (e : EncRegs) : Bool := e.state.terminal

/-- `enc_status` -/
def EncRegs.status (e : EncRegs) : BitVec 2 := e.state.statusCode

/-- An entry offered on the stream, with `tx_last` (R22, R50). -/
structure Offer where
  entry : StreamEntry
  last : Bool
deriving DecidableEq, Repr

/-- What the encoder offers in the step it takes from these registers: the entry that step emits, with `tx_last` = 1 on the last entry
of the frame; nothing in a step that emits nothing (R131 to R135). -/
def EncRegs.offer (e : EncRegs) : Option Offer :=
  match e.state with
  | .emitHeader => some ⟨Symbol.entry .hdr, e.remaining == 0⟩
  | .emitSpace => some ⟨Symbol.entry .sp, false⟩
  | .emitMark => some ⟨Symbol.entry (Symbol.ofBit e.nextBit), e.remaining == 1⟩
  | .idle | .done | .faultRange => none

/-- The encoder's output ports that are stable between steps (R22). -/
structure EncOutputs where
  busy : Bool
  done : Bool
  status : BitVec 2
  txFreqKhz : Khz
  txOnce : Bool
deriving DecidableEq, Repr

/-- The values of R22's table that are functions of the registers. -/
def EncRegs.outputs (e : EncRegs) : EncOutputs :=
  { busy := e.busy, done := e.done, status := e.status, txFreqKhz := e.freq, txOnce := true }

/-- The encoder's output ports that say what a step emits (R22). -/
structure TxPorts where
  valid : Bool
  kind : BitVec 1
  dur : Dur
  last : Bool
deriving DecidableEq, Repr

/-- The ports in a step that emits nothing (R22 "else 0"); `tx_kind` and `tx_dur` read 0 when they are not meaningful (log 10). -/
def TxPorts.idle : TxPorts := { valid := false, kind := 0, dur := 0, last := false }

/-- The ports in a step that emits an entry, and in one that does not (R22, R50). -/
def TxPorts.ofOffer : Option Offer → TxPorts
  | some o => { valid := true, kind := o.entry.kind.bit, dur := o.entry.dur, last := o.last }
  | none => .idle

end Sys2Proof.Machine
end

