-- ==== Sys2Proof/Machine/Decoder.lean ====
section
/-! DEFINITION. The decoder's micro-operations (R101 to R106): each as a function of the registers, and each as a meaning that runs in
the states its rule names under "Runs when" and is refused by name elsewhere (log 7). -/

namespace Sys2Proof.Machine

/-- The pseudocode of D.HEADER (R102). -/
def DecRegs.headerStep (t : Tolerance) (b : PulseBuffer) (d : DecRegs) : DecRegs :=
  if d.len.toNat < 2 then d.raise .boundsFault
  else if Symbol.takes t .hdr (b.read 1) then { d with state := .expectSpace }
  else d.raise .headerMarkError

/-- The pseudocode of D.SPACE (R103). -/
def DecRegs.spaceStep (t : Tolerance) (b : PulseBuffer) (d : DecRegs) : DecRegs :=
  if Symbol.takes t .sp (b.read d.offset.toNat) then { d with offset := d.offset + 1, state := .expectMark }
  else d.raise .dataSpaceError

/-- The pseudocode of D.MARK (R104), its failures in the rule's order. -/
def DecRegs.markStep (t : Tolerance) (b : PulseBuffer) (d : DecRegs) : DecRegs :=
  if d.len.toNat ≤ d.offset.toNat then d.raise .boundsFault
  else
    match classifyMark t (b.read d.offset.toNat) with
    | none => d.raise .dataMarkError
    | some bit =>
      if bitsHeld d.offset = Config.maxBits then d.raise .capacityFault
      else { d with value := appendBit d.value bit, offset := d.offset + 1, state := .expectSpace }

/-- The pseudocode of D.FINISH (R105). -/
def DecRegs.finishStep (d : DecRegs) : DecRegs :=
  { d with rValue := d.value, rBitcount := scanBitCount d.offset, state := .success }

/-- `D.START` (R101). -/
def execDStart (s : State) : Host.Outcome State Fault Refusal :=
  if !s.dec.busy && s.ports.decStart then
    .next (s.withDec (DecRegs.start s.ports.decIgnoreHeader s.ports.decSeqLen))
  else .refused .notSelected

/-- `D.HEADER` (R102). -/
def execDHeader (s : State) : Host.Outcome State Fault Refusal :=
  if s.dec.state = .expectHeader then .next (s.withDec (s.dec.headerStep s.tol s.buf))
  else .refused .notSelected

/-- `D.SPACE` (R103). -/
def execDSpace (s : State) : Host.Outcome State Fault Refusal :=
  if s.dec.state = .expectSpace ∧ s.dec.offset.toNat < s.dec.len.toNat then .next (s.withDec (s.dec.spaceStep s.tol s.buf))
  else .refused .notSelected

/-- `D.MARK` (R104). -/
def execDMark (s : State) : Host.Outcome State Fault Refusal :=
  if s.dec.state = .expectMark then .next (s.withDec (s.dec.markStep s.tol s.buf))
  else .refused .notSelected

/-- `D.FINISH` (R105). -/
def execDFinish (s : State) : Host.Outcome State Fault Refusal :=
  if s.dec.state = .expectSpace ∧ s.dec.len.toNat ≤ s.dec.offset.toNat then .next (s.withDec s.dec.finishStep)
  else .refused .notSelected

/-- `D.HOLD` (R106). -/
def execDHold (s : State) : Host.Outcome State Fault Refusal :=
  if !s.dec.busy && !s.ports.decStart then .next s
  else .refused .notSelected

/-- One step of a scan: the micro-operation R107 names for a scanning state; at rest nothing. -/
def DecRegs.scanStep (t : Tolerance) (b : PulseBuffer) (d : DecRegs) : DecRegs :=
  match d.state with
  | .expectHeader => d.headerStep t b
  | .expectSpace => if d.offset.toNat < d.len.toNat then d.spaceStep t b else d.finishStep
  | .expectMark => d.markStep t b
  | .idle | .success | .errHeaderMark | .errDataSpace | .errDataMark | .faultBounds | .faultCapacity => d

/-- At most `n` steps of a scan, until a terminal state. -/
def DecRegs.scanRun (t : Tolerance) (b : PulseBuffer) : Nat → DecRegs → DecRegs
  | 0, d => d
  | n + 1, d => if d.busy then DecRegs.scanRun t b n (d.scanStep t b) else d

end Sys2Proof.Machine
end

