-- ==== Sys2Proof/Machine/Encoder.lean ====
section
/-! DEFINITION. The encoder's micro-operations (R131 to R135): each emitting step as a function of the state, and each
micro-operation as a meaning that runs in the states its rule names and is refused by name elsewhere (log 7). -/

namespace Sys2Proof.Machine

/-- The pseudocode of E.HEADER (R132). -/
def State.encHeaderStep (s : State) : State :=
  (s.emitSymbol .hdr).withEnc { s.enc with state := if s.enc.remaining = 0 then .done else .emitSpace }

/-- The pseudocode of E.SPACE (R133). -/
def State.encSpaceStep (s : State) : State :=
  (s.emitSymbol .sp).withEnc { s.enc with state := .emitMark }

/-- The pseudocode of E.MARK (R134); both tests of `e_remaining` use its value at the start of the step. -/
def State.encMarkStep (s : State) : State :=
  (s.emitSymbol (Symbol.ofBit s.enc.nextBit)).withEnc
    { s.enc with remaining := s.enc.remaining - 1, state := if s.enc.remaining = 1 then .done else .emitSpace }

/-- `E.START` (R131). -/
def execEStart (s : State) : Host.Outcome State Fault Refusal :=
  if !s.enc.busy && s.ports.encStart then
    .next (s.withEnc (EncRegs.start s.ports.encValue s.ports.encBitcount s.ports.encFreqKhz))
  else .refused .notSelected

/-- `E.HEADER` (R132). -/
def execEHeader (s : State) : Host.Outcome State Fault Refusal :=
  if s.enc.state = .emitHeader then .next s.encHeaderStep
  else .refused .notSelected

/-- `E.SPACE` (R133). -/
def execESpace (s : State) : Host.Outcome State Fault Refusal :=
  if s.enc.state = .emitSpace then .next s.encSpaceStep
  else .refused .notSelected

/-- `E.MARK` (R134). Its operand `e_remaining` is "at least 1"; with 0 there is no bit to send and the model stops (log 8). -/
def execEMark (s : State) : Host.Outcome State Fault Refusal :=
  if s.enc.state = .emitMark then
    if s.enc.remaining = 0 then .fault .noBitLeft else .next s.encMarkStep
  else .refused .notSelected

/-- `E.HOLD` (R135). -/
def execEHold (s : State) : Host.Outcome State Fault Refusal :=
  if !s.enc.busy && !s.ports.encStart then .next s
  else .refused .notSelected

/-- One step of an emission: the micro-operation R135 names for an emitting state; at rest nothing. -/
def State.emitStep (s : State) : State :=
  match s.enc.state with
  | .emitHeader => s.encHeaderStep
  | .emitSpace => s.encSpaceStep
  | .emitMark => s.encMarkStep
  | .idle | .done | .faultRange => s

/-- At most `n` steps of an emission, until a terminal state. -/
def State.emitRun : Nat → State → State
  | 0, s => s
  | n + 1, s => if s.enc.busy then State.emitRun n s.emitStep else s

end Sys2Proof.Machine
end

