-- ==== Sys2Proof/Machine/Commands.lean ====
section
/-! DEFINITION. The two commands (R100, R130): the step sequence from START to a terminal state, "each run to completion within one
call" (R10). A command given to a busy unit "has no effect at all" (R186). -/

namespace Sys2Proof.Machine

/-- `DECODE` (R100): D.START, then scanning steps. After D.START at most 67 steps remain, whatever the length (R110). -/
def execDecode (ih : Bool) (len : Len) (s : State) : Host.Outcome State Fault Refusal :=
  if s.dec.busy then .next s
  else .next (s.withDec (DecRegs.scanRun s.tol s.buf 67 (DecRegs.start ih len)))

/-- `ENCODE` (R130): E.START, then emitting steps. After E.START at most `1 + 2 * 32` steps remain (R140). -/
def execEncode (value : Value) (bits : BitCount) (khz : Khz) (s : State) : Host.Outcome State Fault Refusal :=
  if s.enc.busy then .next s
  else .next (State.emitRun 65 (s.withEnc (EncRegs.start value bits khz)))

end Sys2Proof.Machine
end

