-- ==== Sys2Proof/Machine/Matcher.lean ====
section
/-! DEFINITION. The meaning of MATCH (R90, R91). -/

namespace Sys2Proof.Machine

/-- `MATCH` run on its own (R90): it "writes no state, raises nothing"; its answer goes to the model's record (log 6). -/
def execMatchDur (m nom : Dur) (s : State) : Host.Outcome State Fault Refusal :=
  .next (s.withMatchAnswer (matchDuration s.tol m nom))

end Sys2Proof.Machine
end

