-- ==== Sys2Proof/Machine/Symbols.lean ====
section
/-! DEFINITION. The wire symbols as operations of their own (R65): the emission of the symbol's entry. Their reception is the test
`Symbol.takes` inside D.HEADER, D.SPACE and D.MARK (log 11). -/

namespace Sys2Proof.Machine

/-- `HDR` (R65): the entry (1, 2400). -/
def execHdr (s : State) : Host.Outcome State Fault Refusal := .next (s.emitSymbol .hdr)

/-- `SP` (R65): the entry (0, 600). -/
def execSp (s : State) : Host.Outcome State Fault Refusal := .next (s.emitSymbol .sp)

/-- `ONE` (R65): the entry (1, 1200). -/
def execOne (s : State) : Host.Outcome State Fault Refusal := .next (s.emitSymbol .one)

/-- `ZERO` (R65): the entry (1, 600). -/
def execZero (s : State) : Host.Outcome State Fault Refusal := .next (s.emitSymbol .zero)

end Sys2Proof.Machine
end

