-- ==== Sys2Proof/Machine/Dispatch.lean ====
section
/-! DEFINITION. One arm per operation of R60. -/

namespace Sys2Proof.Machine

def exec (i : Instr) (s : State) : Host.Outcome State Fault Refusal :=
  match i with
  | .decode ih len => Sys2Proof.Machine.execDecode ih len s
  | .encode value bits khz => Sys2Proof.Machine.execEncode value bits khz s
  | .dStart => Sys2Proof.Machine.execDStart s
  | .dHeader => Sys2Proof.Machine.execDHeader s
  | .dSpace => Sys2Proof.Machine.execDSpace s
  | .dMark => Sys2Proof.Machine.execDMark s
  | .dFinish => Sys2Proof.Machine.execDFinish s
  | .dHold => Sys2Proof.Machine.execDHold s
  | .eStart => Sys2Proof.Machine.execEStart s
  | .eHeader => Sys2Proof.Machine.execEHeader s
  | .eSpace => Sys2Proof.Machine.execESpace s
  | .eMark => Sys2Proof.Machine.execEMark s
  | .eHold => Sys2Proof.Machine.execEHold s
  | .matchDur m nom => Sys2Proof.Machine.execMatchDur m nom s
  | .hdr => Sys2Proof.Machine.execHdr s
  | .sp => Sys2Proof.Machine.execSp s
  | .one => Sys2Proof.Machine.execOne s
  | .zero => Sys2Proof.Machine.execZero s

end Sys2Proof.Machine
end

