-- ==== Sys2Proof/Machine/Clock.lean ====
section
/-! DEFINITION. What one step of the machine is made of: the reset (R180), the units' micro-operations by the selection tables (R107,
R135), and the host's actions (R75, R48). -/

namespace Sys2Proof.Machine

/-- The micro-operation the decoder runs (R107). -/
def State.decOp (s : State) : Instr := selectDec s.dec.state s.ports.decStart s.dec.offset s.dec.len

/-- The micro-operation the encoder runs (R135). -/
def State.encOp (s : State) : Instr := selectEnc s.enc.state s.ports.encStart

/-- One instruction after another; the first stop ends the step. -/
def andThen (o : Host.Outcome State Fault Refusal) (f : State → Host.Outcome State Fault Refusal) :
    Host.Outcome State Fault Refusal :=
  match o with
  | .next s => f s
  | .fault r => .fault r
  | .refused r => .refused r

/-- One step of the block with the ports as they stand: the reset if `rst` = 1 (R180), else the units named run their
micro-operations. -/
def clock (m : Moves) (s : State) : Host.Outcome State Fault Refusal :=
  if s.ports.rst then .next s.hardReset
  else
    match m with
    | .dec => exec s.decOp s
    | .enc => exec s.encOp s
    | .both => andThen (exec s.decOp s) fun s' => exec s'.encOp s'

/-- A schedule of steps with the ports as they stand (R165). -/
def runMoves : List Moves → State → Host.Outcome State Fault Refusal
  | [], s => .next s
  | m :: ms, s => andThen (clock m s) (runMoves ms)

/-- A packed word given by the host: the instruction it decodes to is carried out whole; under reset it has no effect (R180). -/
def runWord (w : HostWord) (s : State) : Host.Outcome State Fault Refusal :=
  if s.ports.rst then .next s.hardReset
  else
    match decodeWord w with
    | .ok i => exec i s
    | .error _ => .refused .undecodableWord

/-- The host puts new contents into the buffer, writing every entry in turn: against the contract while a scan of at least one entry
goes on (R48, R185). -/
def refill (s : State) (b : PulseBuffer) : Host.Outcome State Fault Refusal :=
  if s.dec.busy ∧ 0 < s.dec.len.toNat then .refused .bufferContract
  else .next (s.withBuf b)

/-- The last frame on the stream: from the last header mark on (R51: a frame begins with a mark of `HDR_MARK`, and no other entry of
one has that duration). Where the stream holds no header mark the spec does not say what the last frame is; the model takes the whole
stream, so that an empty stream leaves the gap alone (DESIGN CHOICE, log 4). -/
def lastFrame (log : List StreamEntry) : List StreamEntry :=
  log.foldl (fun acc e => if e = Symbol.entry .hdr then [e] else acc ++ [e]) []

/-- One action of the host. -/
def act (a : HostAction) (s : State) : Host.Outcome State Fault Refusal :=
  match a with
  | .drive p m => clock m (s.withPorts p)
  | .word w => runWord w s
  | .store i d =>
    if s.dec.busy ∧ i.toNat < s.dec.len.toNat then .refused .bufferContract
    else .next (s.withBuf (s.buf.write i.toNat d))
  | .buf entries => refill s (PulseBuffer.ofList entries)
  | .capture gap => refill s (PulseBuffer.ofList (gap :: (lastFrame s.txLog).map StreamEntry.dur))

/-- The state in which the next step runs a given word: the host has it ready and no reset is asked for. -/
def State.withWord (s : State) (w : HostWord) : State :=
  { s with ports := { s.ports with rst := false }, script := .word w :: s.script }

end Sys2Proof.Machine
end

