-- ==== Sys2Proof/Machine/Step.lean ====
section
/-! DEFINITION. One step of the machine: the host's next action if it has one, else a step of both units with the ports as they
stand. -/

namespace Sys2Proof.Machine

/-- One step. -/
def step (s : State) : Host.Outcome State Fault Refusal :=
  match s.script with
  | [] => clock .both s
  | a :: rest => act a (s.withScript rest)

/-- The state in which the next step runs the instruction of a table row's word (log 4); a word that is no packed word of any port
leaves nothing to run. -/
def State.withFetchWord (s : State) (nbits w : Nat) : State :=
  match tableWord nbits w with
  | some hw => s.withWord hw
  | none => s

end Sys2Proof.Machine
end

