-- ==== Sys2Proof/Machine/Ports.lean ====
section
/-! DEFINITION. The ports of a step of the block: what it reads and what it offers, in a step of the units (R22, R49, R50, R180) and in
a step in which the host gives a whole command or a stream word. -/

namespace Sys2Proof.Machine

/-- `buf_addr` in a step in which the units named move: 0 where the decoder does not move, and in a reset step (R49, R180). -/
def State.bufAddr (s : State) (m : Moves) : Len :=
  if s.ports.rst then 0
  else
    match m with
    | .dec | .both => s.dec.bufAddr
    | .enc => 0

/-- The entry offered in a step in which the units named move: none where the encoder does not move, and none in a reset step, which
drops an operation "without a `tx_last`" (R180). -/
def State.offer (s : State) (m : Moves) : Option Offer :=
  if s.ports.rst then none
  else
    match m with
    | .enc | .both => s.enc.offer
    | .dec => none

/-- `tx_valid`, `tx_kind`, `tx_dur`, `tx_last` in a step in which the units named move (R22). -/
def State.tx (s : State) (m : Moves) : TxPorts := .ofOffer (s.offer m)

/-- What is offered in at most `n` steps of an emission, until a terminal state, oldest first. -/
def State.runOffers : Nat → State → List Offer
  | 0, _ => []
  | n + 1, s => if s.enc.busy then s.enc.offer.toList ++ State.runOffers n s.emitStep else []

/-- What is offered while an instruction is carried out in a state in which it runs: an emitting micro-operation offers its entry, an
ENCODE those of its micro-operations one after another, a wire symbol its own entry, which ends no frame (log 11). -/
def State.offersOf (s : State) (i : Instr) : List Offer :=
  match i with
  | .encode value bits khz => if s.enc.busy then [] else State.runOffers 65 (s.withEnc (EncRegs.start value bits khz))
  | .eHeader => s.enc.offer.toList
  | .eSpace => s.enc.offer.toList
  | .eMark => s.enc.offer.toList
  | .hdr => [⟨Symbol.entry .hdr, false⟩]
  | .sp => [⟨Symbol.entry .sp, false⟩]
  | .one => [⟨Symbol.entry .one, false⟩]
  | .zero => [⟨Symbol.entry .zero, false⟩]
  | .decode _ _ => []
  | .dStart => []
  | .dHeader => []
  | .dSpace => []
  | .dMark => []
  | .dFinish => []
  | .dHold => []
  | .eStart => []
  | .eHold => []
  | .matchDur _ _ => []

/-- Whether the machine's step is a step with `rst` = 1 (R180): the host's writes of the buffer are no steps of the block. -/
def State.resets (s : State) : Bool :=
  match s.script with
  | [] => s.ports.rst
  | .drive p _ :: _ => p.rst
  | .word _ :: _ => s.ports.rst
  | .store _ _ :: _ => false
  | .buf _ :: _ => false
  | .capture _ :: _ => false

/-- What the machine's step offers on the stream, oldest first. -/
def State.offers (s : State) : List Offer :=
  match s.script with
  | [] => (s.offer .both).toList
  | .drive p m :: _ => ((s.withPorts p).offer m).toList
  | .word w :: _ =>
    if s.ports.rst then []
    else
      match decodeWord w with
      | .ok i => s.offersOf i
      | .error _ => []
  | .store _ _ :: _ => []
  | .buf _ :: _ => []
  | .capture _ :: _ => []

end Sys2Proof.Machine
end

