-- ==== Sys2Proof/Machine/Functional.lean ====
section
/-! DEFINITION. The two operations at the level of functions, as the spec gives them beside the steps: the DECODE of a sequence
(R109), the frame of an ENCODE (R136), and the outcome a finished DECODE shows (R100). -/

namespace Sys2Proof.Machine

/-- The outcome of a DECODE (R100), with the error's expected duration by its name (R73). -/
inductive DecodeResult where
  /-- `Success{value, bitCount, protocolTag}`: the DecodedPacket. -/
  | success (value bitCount : Nat) (tag : ProtocolTag)
  | headerMarkError (expected : ExpectedDuration)
  | dataSpaceError (expected : ExpectedDuration)
  | dataMarkError (expected : ExpectedDuration)
  | boundsFault
  | capacityFault
deriving DecidableEq, Repr

/-- The loop of R109 over the entries from index 2 on, with `n` bits already in `value`. -/
def decodePairs (t : Tolerance) : List Dur → Nat → Nat → DecodeResult
  | [], n, value => .success value n .milestag
  | [s], _, _ =>
    if matchDuration t s Config.space then .boundsFault else .dataSpaceError .interBitSpaceDuration
  | s :: m :: rest, n, value =>
    if matchDuration t s Config.space then
      match classifyMark t m with
      | none => .dataMarkError .oneOrZeroBitDuration
      | some b => if n = 32 then .capacityFault else decodePairs t rest (n + 1) (2 * value + b.toNat)
    else .dataSpaceError .interBitSpaceDuration

/-- `decode(seq, len, ih)` of R109, with `len` the length of the list. -/
def decodeFunction (t : Tolerance) (seq : List Dur) (ih : Bool) : DecodeResult :=
  match ih, seq with
  | false, [] => .boundsFault
  | false, [_] => .boundsFault
  | false, _ :: h :: rest =>
    if matchDuration t h Config.hdrMark then decodePairs t rest 0 0 else .headerMarkError .headerMarkDuration
  | true, seq => decodePairs t (seq.drop 2) 0 0

/-- The sequence of the first `len` entries of the buffer (R41). -/
def PulseBuffer.sequence (b : PulseBuffer) (len : Nat) : List Dur := (List.range len).map b.read

/-- The outcome a decoder in a terminal state shows (R100, R150). -/
def DecRegs.result (d : DecRegs) : Option DecodeResult :=
  match d.state with
  | .success => some (.success d.rValue.toNat d.rBitcount.toNat .milestag)
  | .errHeaderMark => some (.headerMarkError .headerMarkDuration)
  | .errDataSpace => some (.dataSpaceError .interBitSpaceDuration)
  | .errDataMark => some (.dataMarkError .oneOrZeroBitDuration)
  | .faultBounds => some .boundsFault
  | .faultCapacity => some .capacityFault
  | .idle | .expectHeader | .expectSpace | .expectMark => none

/-- Pair `k` of the frame of an ENCODE (R67, R136): the space and the mark of bit `value[bits-1-k]`. -/
def framePair (value : Value) (bits k : Nat) : List StreamEntry :=
  [⟨.space, 600⟩, ⟨.mark, if value.getLsbD (bits - 1 - k) then 1200 else 600⟩]

/-- `encode(value, bits)` of R136 for `bits <= 32`: the header mark, then the pairs. -/
def encodeFunction (value : Value) (bits : Nat) : List StreamEntry :=
  ⟨.mark, 2400⟩ :: (List.range bits).flatMap (framePair value bits)

end Sys2Proof.Machine
end

