-- ==== Sys2Proof/Safety.lean ====
section
/-! DEFINITION. What a safe state is: the invariants the spec states of a scan and of an emission (R15, R25, R112, R113, R115), the
canonical form of the buffer, the range of the tolerance (R5), and the entries a stream can hold (R72). -/

namespace Sys2Proof.Machine

/-- The decoder's invariant. "Scanning or terminal" is "not idle": a decoder that has accepted a DECODE. -/
structure DecInv (d : DecRegs) : Prop where
  /-- `D_IDLE` is the state after reset, nothing accepted yet (R11, R28). -/
  idle : d.state = .idle → d = .reset
  /-- R115 (a), lower bound. -/
  offsetLow : d.state ≠ .idle → 2 ≤ d.offset.toNat
  /-- R115 (a), upper bound. -/
  offsetHigh : d.state ≠ .idle → d.offset.toNat ≤ max d.len.toNat 2
  /-- R115 (f). -/
  offsetCap : d.offset.toNat ≤ 67
  /-- R102: `offset` and `value` stay 2 and 0 until the header is checked, and it is checked only when `ih` = 0. -/
  header : d.state = .expectHeader → d.offset.toNat = 2 ∧ d.value.toNat = 0 ∧ d.ih = false
  /-- R115 (b). -/
  evenAtSpace : d.state = .expectSpace → d.offset.toNat % 2 = 0
  /-- R115 (b). -/
  oddAtMark : d.state = .expectMark → d.offset.toNat % 2 = 1
  /-- R115 (e), R112. -/
  valueBound : d.state ≠ .idle → d.value.toNat < 2 ^ ((d.offset.toNat - 2) / 2)
  /-- R15, R113: no value outside Success. -/
  noPartial : d.state ≠ .success → d.rValue = 0 ∧ d.rBitcount = 0
  /-- R15, R73: an expected duration only with an error. -/
  noExpected : d.state ≠ .errHeaderMark → d.state ≠ .errDataSpace → d.state ≠ .errDataMark → d.rExpected = 0
  /-- R151, R115. -/
  headerError : d.state = .errHeaderMark → d.rExpected = 2400 ∧ d.offset.toNat = 2 ∧ d.ih = false
  /-- R152, R115. -/
  spaceError : d.state = .errDataSpace → d.rExpected = 600 ∧ d.offset.toNat % 2 = 0 ∧ d.offset.toNat < d.len.toNat
  /-- R153, R115. -/
  markError : d.state = .errDataMark → d.rExpected = 1200 ∧ d.offset.toNat % 2 = 1 ∧ d.offset.toNat < d.len.toNat
  /-- R154, R115: the two places of a BoundsFault. -/
  bounds : d.state = .faultBounds →
    (d.offset.toNat = 2 ∧ d.len.toNat < 2 ∧ d.ih = false) ∨ (d.offset = d.len ∧ d.offset.toNat % 2 = 1)
  /-- R155, R115. -/
  capacity : d.state = .faultCapacity → d.offset.toNat = 67 ∧ 67 < d.len.toNat
  /-- R105, R115. -/
  success : d.state = .success →
    d.rValue = d.value ∧ d.rBitcount.toNat = (d.offset.toNat - 2) / 2 ∧ d.offset.toNat = max d.len.toNat 2 ∧ d.offset.toNat % 2 = 0

/-- The encoder's invariant (R20, R25, R131 to R134, R157). -/
structure EncInv (e : EncRegs) : Prop where
  /-- `E_IDLE` is the state after reset (R19, R28). -/
  idle : e.state = .idle → e = .reset
  /-- An accepted request has at most 32 bits (R131). -/
  header : e.state = .emitHeader → e.remaining.toNat ≤ 32
  /-- `e_remaining` is at least 1 where a pair is to be sent (R133, R134). -/
  pair : e.state = .emitSpace ∨ e.state = .emitMark → 1 ≤ e.remaining.toNat ∧ e.remaining.toNat ≤ 32
  /-- The whole frame has been sent (R19). -/
  done : e.state = .done → e.remaining.toNat = 0
  /-- The refused request stands in the registers (R157). -/
  faultRange : e.state = .faultRange → 32 < e.remaining.toNat

/-- The machine's invariant. -/
structure Inv (s : State) : Prop where
  /-- R5: `0 <= TOL_NUM < TOL_DEN`. -/
  tol : s.tol.Valid
  /-- The buffer is in canonical form. -/
  buf : s.buf.wf = true
  dec : DecInv s.dec
  enc : EncInv s.enc
  /-- R72: the stream holds wire symbols only. -/
  stream : ∀ e ∈ s.txLog, ∃ x : Symbol, e = x.entry

end Sys2Proof.Machine
end

