-- ==== Sys2Proof/Certificates/Slice0/Obligations.lean ====
section
/-! DEFINITION. The statements for the provers: what the numbered rules of the spec say the block does, about this model. -/

namespace Sys2Proof.Claims

open Sys2Proof.Machine

/-- The inequality of R91, written with integers: `TOL_DEN * |m - nom| <= TOL_NUM * nom`. -/
def Within (t : Tolerance) (m nom : Nat) : Prop := t.den * ((m : Int) - (nom : Int)).natAbs ≤ t.num * nom

/-- `d_state` is `D_IDLE` or a terminal state (R101, R106). -/
def DecRests (s : State) : Prop :=
  s.dec.state ≠ .expectHeader ∧ s.dec.state ≠ .expectSpace ∧ s.dec.state ≠ .expectMark

/-- `e_state` is `E_IDLE` or a terminal state (R131, R135). -/
def EncRests (s : State) : Prop :=
  s.enc.state ≠ .emitHeader ∧ s.enc.state ≠ .emitSpace ∧ s.enc.state ≠ .emitMark

/-- The three status ports of the decoder (R17). -/
def DecFlags (s : State) (busy done : Bool) (status : Nat) : Prop :=
  s.dec.outputs.busy = busy ∧ s.dec.outputs.done = done ∧ s.dec.outputs.status.toNat = status

/-- The three status ports of the encoder (R22). -/
def EncFlags (s : State) (busy done : Bool) (status : Nat) : Prop :=
  s.enc.outputs.busy = busy ∧ s.enc.outputs.done = done ∧ s.enc.outputs.status.toNat = status

/-- The decoder's micro-operations (R60). -/
def decMicroOps : List Instr := [.dStart, .dHeader, .dSpace, .dMark, .dFinish, .dHold]

/-- The encoder's micro-operations (R60). -/
def encMicroOps : List Instr := [.eStart, .eHeader, .eSpace, .eMark, .eHold]

/-- The wire symbols (R60). -/
def wireSymbols : List Instr := [.hdr, .sp, .one, .zero]

/-- The steps of a schedule in which the decoder moves. -/
def decSteps (ms : List Moves) : Nat := (ms.filter (· ≠ .enc)).length

/-- The steps of a schedule in which the encoder moves. -/
def encSteps (ms : List Moves) : Nat := (ms.filter (· ≠ .dec)).length

end Sys2Proof.Claims

section

open Sys2Proof Sys2Proof.Machine Sys2Proof.Claims

/-! ### Words (R63, R72) -/

/-- 30_encoding.md R63, R72: a word and the instruction it stands for determine each other, with every operand at every value. -/
def Obligations.WordsAndInstructionsAgree : Prop :=
  ∀ (i : Instr) (w : HostWord), encodeWord i = some w ↔ decodeWord w = .ok i

/-- R63, R72 and 95_test_vectors.md W1, W2, W6, W10: words written out from the formats. That the number of bits, in whole bytes, tells
the port is the model's choice (log 13). -/
def Obligations.WordsOfTheFormatsDecode : Prop :=
  decodeTableWord 24 0b1_0000100101100000 = some .hdr ∧
  decodeTableWord 24 0b0_0000001001011000 = some .sp ∧
  decodeTableWord 24 0b1_0000010010110000 = some .one ∧
  decodeTableWord 24 0b1_0000001001011000 = some .zero ∧
  decodeTableWord 16 0b0_00000110 = some (.decode false 6) ∧
  decodeTableWord 16 0b1_00001000 = some (.decode true 8) ∧
  decodeTableWord 48 0b00100110_001110_00000000000000000000000000000000 = some (.encode 0 14 38) ∧
  decodeTableWord 48 0b00111000_100000_11111111111111111111111111111111 = some (.encode 0xFFFFFFFF 32 56)

/-- R72: a stream word is one of the four entries, or no instruction. -/
def Obligations.OnlyTheFourStreamWordsDecode : Prop :=
  ∀ w : BitVec (Config.durWidth + 1), (∃ i, decodeWord (.streamEntry w) = .ok i) ↔
    w.toNat = 2 ^ Config.durWidth + 2400 ∨ w.toNat = 600 ∨ w.toNat = 2 ^ Config.durWidth + 1200 ∨
      w.toNat = 2 ^ Config.durWidth + 600

/-! ### The step of the machine -/

/-- A step runs the decoded instruction: the word the host gives is carried out by exec, with the word taken off the host's list (the list is the model's own, log 4). -/
def Obligations.StepRunsTheDecodedWord : Prop :=
  ∀ (s : State) (w : HostWord) (rest : List HostAction) (i : Instr),
    s.script = .word w :: rest → s.ports.rst = false → decodeWord w = .ok i → step s = exec i { s with script := rest }

/-- The word of a table row placed by withFetchWord is the one the next step runs (log 4); which port a table word is
given on is read from its number of bits (log 13). -/
def Obligations.FetchedWordRunsNext : Prop :=
  ∀ (s : State) (nbits w : Nat) (i : Instr), decodeTableWord nbits w = some i →
    step (s.withFetchWord nbits w) = exec i { s with ports := { s.ports with rst := false } }

/-- R107, R135: with nothing to do for the host, a step without reset runs the micro-operation selected for the decoder and the one
selected for the encoder; with ports to drive, it drives them first and the units named move (the host's list and the naming of units are the model's own,
log 4). -/
def Obligations.StepRunsTheSelectedOperations : Prop :=
  ∀ s : State,
    (s.script = [] → s.ports.rst = false → step s = andThen (exec s.decOp s) fun u => exec u.encOp u) ∧
    (∀ (p : Inputs) (rest : List HostAction), p.rst = false →
      let v := { s with ports := p, script := rest }
      (s.script = .drive p .both :: rest → step s = andThen (exec v.decOp v) fun u => exec u.encOp u) ∧
      (s.script = .drive p .dec :: rest → step s = exec v.decOp v) ∧
      (s.script = .drive p .enc :: rest → step s = exec v.encOp v))

/-! ### Selection (R107, R135) -/

/-- R107: the decoder's table of steps, row by row: which micro-operation runs, that it does, and the possible next states. -/
def Obligations.DecoderStepTable : Prop :=
  ∀ s : State, ∃ t, exec s.decOp s = .next t ∧
    (DecRests s → s.ports.decStart = true →
      s.decOp = .dStart ∧ (t.dec.state = .expectHeader ∨ t.dec.state = .expectSpace)) ∧
    (DecRests s → s.ports.decStart = false → s.decOp = .dHold ∧ t.dec.state = s.dec.state) ∧
    (s.dec.state = .expectHeader →
      s.decOp = .dHeader ∧ (t.dec.state = .expectSpace ∨ t.dec.state = .errHeaderMark ∨ t.dec.state = .faultBounds)) ∧
    (s.dec.state = .expectSpace → s.dec.offset.toNat < s.dec.len.toNat →
      s.decOp = .dSpace ∧ (t.dec.state = .expectMark ∨ t.dec.state = .errDataSpace)) ∧
    (s.dec.state = .expectSpace → s.dec.len.toNat ≤ s.dec.offset.toNat → s.decOp = .dFinish ∧ t.dec.state = .success) ∧
    (s.dec.state = .expectMark →
      s.decOp = .dMark ∧ (t.dec.state = .expectSpace ∨ t.dec.state = .errDataMark ∨ t.dec.state = .faultBounds ∨
        t.dec.state = .faultCapacity))

/-- R135: the encoder's table of steps, row by row; in an emitting state `enc_start` is not looked at. E.MARK's operand `e_remaining`
is at least 1 (R134). That `tx_kind` and `tx_dur` read 0 in E.HOLD is the model's choice (log 10). -/
def Obligations.EncoderStepTable : Prop :=
  ∀ s : State, (s.enc.state = .emitMark → 1 ≤ s.enc.remaining.toNat) → ∃ t, exec s.encOp s = .next t ∧
    (s.enc.outputs.busy = true → ∀ b, ({ s with ports := { s.ports with encStart := b } } : State).encOp = s.encOp) ∧
    (EncRests s → s.ports.encStart = true →
      s.encOp = .eStart ∧ (t.enc.state = .emitHeader ∨ t.enc.state = .faultRange)) ∧
    (EncRests s → s.ports.encStart = false → s.encOp = .eHold ∧ t = s ∧ ∀ m, s.tx m = .idle) ∧
    (s.enc.state = .emitHeader → s.encOp = .eHeader ∧ (t.enc.state = .emitSpace ∨ t.enc.state = .done)) ∧
    (s.enc.state = .emitSpace → s.encOp = .eSpace ∧ t.enc.state = .emitMark) ∧
    (s.enc.state = .emitMark → s.encOp = .eMark ∧ (t.enc.state = .emitSpace ∨ t.enc.state = .done))

/-- R107 "exactly one of the six", R135: of a unit's micro-operations the selected one alone runs; the others are refused by name,
the model's own stop (log 7). E.MARK without a bit left stops with a fault (log 8). -/
def Obligations.OnlyTheSelectedOperationRuns : Prop :=
  ∀ s : State,
    (∀ i ∈ decMicroOps, i ≠ s.decOp → exec i s = .refused .notSelected) ∧
    (∀ i ∈ encMicroOps, i ≠ s.encOp → exec i s = .refused .notSelected) ∧
    (s.enc.state = .emitMark → s.enc.remaining.toNat = 0 → exec .eMark s = .fault .noBitLeft)

/-! ### The matcher (R90 to R95) -/

/-- R90, R91: MATCH answers the inequality and writes no register, no entry and no port. The answer goes to the model's own record
(log 6). -/
def Obligations.MatchAnswersTheInequality : Prop :=
  ∀ (s : State) (m nom : Dur), ∃ r : Bool,
    exec (.matchDur m nom) s = .next { s with matchAnswer := some r } ∧ (r = true ↔ Within s.tol m.toNat nom.toNat)

/-- R92: the window form, with the edges as the rule writes them; where `nom * TOL_NUM / TOL_DEN` is a whole number the edges are
`nom - d` and `nom + d`, and where the upper edge is no representable duration every `m` from the lower edge on matches. -/
def Obligations.MatchIsAClosedWindow : Prop :=
  ∀ (t : Tolerance) (m nom : Dur), t.Valid →
    ((windowLo t nom.toNat : ℤ) = ⌈(nom.toNat : ℚ) * ((t.den : ℚ) - t.num) / t.den⌉) ∧
    ((windowHi t nom.toNat : ℤ) = ⌊(nom.toNat : ℚ) * ((t.den : ℚ) + t.num) / t.den⌋) ∧
    (matchDuration t m nom = true ↔ windowLo t nom.toNat ≤ m.toNat ∧ m.toNat ≤ windowHi t nom.toNat) ∧
    (∀ d, nom.toNat * t.num = t.den * d → windowLo t nom.toNat + d = nom.toNat ∧ windowHi t nom.toNat = nom.toNat + d) ∧
    (2 ^ Config.durWidth - 1 < windowHi t nom.toNat → (matchDuration t m nom = true ↔ windowLo t nom.toNat ≤ m.toNat))

/-- R92, the source's boundary property: where the edge `d` is a whole number, both edges match and one unit beyond does not. -/
def Obligations.WholeEdgesMatchAndOneBeyondDoesNot : Prop :=
  ∀ (t : Tolerance) (nom : Dur) (d : Nat), t.Valid → nom.toNat * t.num = t.den * d →
    (∀ m : Dur, m.toNat = nom.toNat + d → matchDuration t m nom = true) ∧
    (∀ m : Dur, m.toNat + d = nom.toNat → matchDuration t m nom = true) ∧
    (∀ m : Dur, m.toNat = nom.toNat + d + 1 → matchDuration t m nom = false) ∧
    (∀ m : Dur, m.toNat + d + 1 = nom.toNat → matchDuration t m nom = false)

/-- R93: ONE is tried first, then ZERO; the two windows share a value exactly from one third on. -/
def Obligations.MarkClassification : Prop :=
  ∀ t : Tolerance, t.Valid →
    (∀ m : Dur,
      (classifyMark t m = some true ↔ Within t m.toNat 1200) ∧
      (classifyMark t m = some false ↔ ¬ Within t m.toNat 1200 ∧ Within t m.toNat 600) ∧
      (classifyMark t m = none ↔ ¬ Within t m.toNat 1200 ∧ ¬ Within t m.toNat 600)) ∧
    ((∃ m : Dur, Within t m.toNat 1200 ∧ Within t m.toNat 600) ↔ windowLo t 1200 ≤ windowHi t 600) ∧
    (windowLo t 1200 ≤ windowHi t 600 ↔ t.den ≤ 3 * t.num)

/-- R95: the consequences of the tolerance value, row by row. -/
def Obligations.ToleranceConsequences : Prop :=
  ∀ t : Tolerance, t.Valid →
    (∀ nom ∈ ([2400, 600, 1200] : List Dur), matchDuration t nom nom = true) ∧
    (2 * t.num < t.den → matchDuration t 600 1200 = false) ∧
    (t.den ≤ 2 * t.num → classifyMark t 600 = some true) ∧
    (3 * t.num < t.den → ∀ m : Dur, ¬ (matchDuration t m 1200 = true ∧ matchDuration t m 600 = true)) ∧
    (4 * t.num < t.den → classifyMark t 900 = none) ∧
    (4 * t.num = t.den → classifyMark t 900 = some true ∧ classifyMark t 750 = some false ∧
      ∀ m : Dur, 751 ≤ m.toNat → m.toNat ≤ 899 → classifyMark t m = none) ∧
    (t.num = 0 → ∀ m nom : Dur, matchDuration t m nom = true ↔ m = nom)

/-! ### The decoder's micro-operations (R101 to R106, R156) -/

/-- R101: D.START overwrites every register of the decoder and nothing else; it reads no entry and sets the flags. -/
def Obligations.DStartOverwritesTheDecoder : Prop :=
  ∀ s : State, DecRests s → s.ports.decStart = true → ∃ t, exec .dStart s = .next t ∧
    t = { s with dec := {
      state := if s.ports.decIgnoreHeader then .expectSpace else .expectHeader
      offset := 2, value := 0, ih := s.ports.decIgnoreHeader, len := s.ports.decSeqLen
      rValue := 0, rBitcount := 0, rExpected := 0 } } ∧
    DecFlags t true false 0 ∧ ∀ m, s.bufAddr m = 0

/-- R102: D.HEADER, its three outcomes. -/
def Obligations.DHeaderChecksTheHeader : Prop :=
  ∀ s : State, s.dec.state = .expectHeader →
    (s.dec.len.toNat < 2 → exec .dHeader s = .next { s with dec := { s.dec with state := .faultBounds } }) ∧
    (2 ≤ s.dec.len.toNat → Within s.tol (s.buf.read 1).toNat 2400 →
      exec .dHeader s = .next { s with dec := { s.dec with state := .expectSpace } }) ∧
    (2 ≤ s.dec.len.toNat → ¬ Within s.tol (s.buf.read 1).toNat 2400 →
      exec .dHeader s = .next { s with dec := { s.dec with state := .errHeaderMark, rExpected := 2400 } })

/-- R103: D.SPACE, its two outcomes. -/
def Obligations.DSpaceChecksTheSpace : Prop :=
  ∀ s : State, s.dec.state = .expectSpace → s.dec.offset.toNat < s.dec.len.toNat →
    (Within s.tol (s.buf.read s.dec.offset.toNat).toNat 600 →
      exec .dSpace s = .next { s with dec := { s.dec with
        offset := BitVec.ofNat Config.lenWidth (s.dec.offset.toNat + 1), state := .expectMark } }) ∧
    (¬ Within s.tol (s.buf.read s.dec.offset.toNat).toNat 600 →
      exec .dSpace s = .next { s with dec := { s.dec with state := .errDataSpace, rExpected := 600 } })

/-- R104: D.MARK, its failures in the rule's order, then the appended bit (`a << k` is multiplication modulo 2^32, R6). -/
def Obligations.DMarkClassifiesAndAppends : Prop :=
  ∀ s : State, s.dec.state = .expectMark →
    let m := (s.buf.read s.dec.offset.toNat).toNat
    (s.dec.len.toNat ≤ s.dec.offset.toNat → exec .dMark s = .next { s with dec := { s.dec with state := .faultBounds } }) ∧
    (s.dec.offset.toNat < s.dec.len.toNat → ¬ Within s.tol m 1200 → ¬ Within s.tol m 600 →
      exec .dMark s = .next { s with dec := { s.dec with state := .errDataMark, rExpected := 1200 } }) ∧
    (s.dec.offset.toNat < s.dec.len.toNat → Within s.tol m 1200 ∨ Within s.tol m 600 → (s.dec.offset.toNat - 3) / 2 = 32 →
      exec .dMark s = .next { s with dec := { s.dec with state := .faultCapacity } }) ∧
    (s.dec.offset.toNat < s.dec.len.toNat → Within s.tol m 1200 → (s.dec.offset.toNat - 3) / 2 ≠ 32 →
      exec .dMark s = .next { s with dec := { s.dec with
        value := BitVec.ofNat 32 (2 * s.dec.value.toNat + 1), offset := BitVec.ofNat Config.lenWidth (s.dec.offset.toNat + 1),
        state := .expectSpace } }) ∧
    (s.dec.offset.toNat < s.dec.len.toNat → ¬ Within s.tol m 1200 → Within s.tol m 600 → (s.dec.offset.toNat - 3) / 2 ≠ 32 →
      exec .dMark s = .next { s with dec := { s.dec with
        value := BitVec.ofNat 32 (2 * s.dec.value.toNat), offset := BitVec.ofNat Config.lenWidth (s.dec.offset.toNat + 1),
        state := .expectSpace } })

/-- R105, R108: D.FINISH, the packet and the flags. -/
def Obligations.DFinishBuildsThePacket : Prop :=
  ∀ s : State, s.dec.state = .expectSpace → s.dec.len.toNat ≤ s.dec.offset.toNat → ∃ t, exec .dFinish s = .next t ∧
    t = { s with dec := { s.dec with
      rValue := s.dec.value, rBitcount := BitVec.ofNat 6 ((s.dec.offset.toNat - 1) / 2), state := .success } } ∧
    DecFlags t false true 1 ∧ t.dec.outputs.tag = Config.tagMilestag ∧ ∀ m, s.bufAddr m = 0

/-- R106: D.HOLD changes nothing and reads no entry; in a scanning state `dec_start` is not looked at. -/
def Obligations.DHoldChangesNothing : Prop :=
  ∀ s : State,
    (DecRests s → s.ports.decStart = false → exec .dHold s = .next s ∧ ∀ m, s.bufAddr m = 0) ∧
    (s.dec.outputs.busy = true → ∀ b, ({ s with ports := { s.ports with decStart := b } } : State).decOp = s.decOp)

/-- R150, R156: a step that raises a failure writes `d_state` and, for an error, `r_expected`, and nothing else; the flags and the
code say which failure it is. -/
def Obligations.RaiseWritesStateAndExpectedOnly : Prop :=
  ∀ (s t : State) (i : Instr), i ∈ [.dHeader, .dSpace, .dMark] → exec i s = .next t → t.dec.outputs.done = true →
    t = { s with dec := { s.dec with state := t.dec.state, rExpected := t.dec.rExpected } } ∧
    t.dec.outputs.busy = false ∧
    ((i = .dHeader ∧ t.dec.outputs.status.toNat = 2 ∧ t.dec.rExpected = 2400) ∨
      (i = .dSpace ∧ t.dec.outputs.status.toNat = 3 ∧ t.dec.rExpected = 600) ∨
      (i = .dMark ∧ t.dec.outputs.status.toNat = 4 ∧ t.dec.rExpected = 1200) ∨
      (i ≠ .dSpace ∧ t.dec.outputs.status.toNat = 5 ∧ t.dec.rExpected = s.dec.rExpected) ∨
      (i = .dMark ∧ t.dec.outputs.status.toNat = 6 ∧ t.dec.rExpected = s.dec.rExpected))

/-- R44, R49, R180: `buf_addr` is 0 or an index below `d_len`; the decoder's registers after a step depend on the entry at `buf_addr` at
most, on none when it is 0; it is 0 in a reset step and where the decoder does not move. The premise is the decoder's invariant (an
offset below 2 is in no scan, R115 a). -/
def Obligations.DecoderReadsAtBufAddrOnly : Prop :=
  ∀ (s : State) (b : PulseBuffer), DecInv s.dec →
    (s.bufAddr .dec ≠ 0 → b.read (s.bufAddr .dec).toNat = s.buf.read (s.bufAddr .dec).toNat) →
    (s.bufAddr .dec ≠ 0 → (s.bufAddr .dec).toNat < s.dec.len.toNat) ∧
    s.bufAddr .both = s.bufAddr .dec ∧ s.bufAddr .enc = 0 ∧ (s.ports.rst = true → s.bufAddr .dec = 0) ∧
    ∃ t u, clock .dec s = .next t ∧ clock .dec { s with buf := b } = .next u ∧ t.dec = u.dec

/-! ### The encoder's micro-operations (R131 to R135) -/

/-- R131, R157: E.START overwrites every register of the encoder, emits nothing, and refuses more than 32 bits. That
`tx_kind` and `tx_dur` read 0 in that step is the model's choice (log 10). -/
def Obligations.EStartOverwritesTheEncoder : Prop :=
  ∀ s : State, EncRests s → s.ports.encStart = true → ∃ t, exec .eStart s = .next t ∧
    t = { s with enc := {
      state := if 32 < s.ports.encBitcount.toNat then .faultRange else .emitHeader
      value := s.ports.encValue, remaining := s.ports.encBitcount, freq := s.ports.encFreqKhz } } ∧
    (s.ports.encBitcount.toNat ≤ 32 → EncFlags t true false 0) ∧
    (32 < s.ports.encBitcount.toNat → EncFlags t false true 2) ∧ ∀ m, s.tx m = .idle

/-- R132: E.HEADER emits (mark, 2400), which the ports show in that step; `tx_last` and the next state depend on whether any bit is
left. -/
def Obligations.EHeaderEmitsTheHeaderMark : Prop :=
  ∀ s : State, s.enc.state = .emitHeader →
    exec .eHeader s = .next { s with
      txLog := s.txLog ++ [⟨.mark, 2400⟩]
      enc := { s.enc with state := if s.enc.remaining.toNat = 0 then .done else .emitSpace } } ∧
    (s.ports.rst = false → s.tx .enc = { valid := true, kind := 1, dur := 2400, last := decide (s.enc.remaining.toNat = 0) })

/-- R133: E.SPACE emits (space, 600), which the ports show in that step; `e_remaining` is at least 1 there, by the encoder's invariant. -/
def Obligations.ESpaceEmitsTheSpace : Prop :=
  ∀ s : State, s.enc.state = .emitSpace →
    exec .eSpace s = .next { s with txLog := s.txLog ++ [⟨.space, 600⟩], enc := { s.enc with state := .emitMark } } ∧
    (s.ports.rst = false → s.tx .enc = { valid := true, kind := 0, dur := 600, last := false }) ∧
    (EncInv s.enc → 1 ≤ s.enc.remaining.toNat)

/-- R134: E.MARK emits the mark of bit `e_value[e_remaining - 1]`, which the ports show in that step, and counts down. -/
def Obligations.EMarkEmitsTheNextBit : Prop :=
  ∀ s : State, s.enc.state = .emitMark → 1 ≤ s.enc.remaining.toNat →
    let d : Dur := if s.enc.value.toNat / 2 ^ (s.enc.remaining.toNat - 1) % 2 = 1 then 1200 else 600
    exec .eMark s = .next { s with
      txLog := s.txLog ++ [⟨.mark, d⟩]
      enc := { s.enc with
        remaining := BitVec.ofNat 6 (s.enc.remaining.toNat - 1)
        state := if s.enc.remaining.toNat = 1 then .done else .emitSpace } } ∧
    (s.ports.rst = false → s.tx .enc = { valid := true, kind := 1, dur := d, last := decide (s.enc.remaining.toNat = 1) })

/-- R135: E.HOLD changes nothing and emits nothing. That `tx_kind` and `tx_dur` read 0 in that step is the model's choice (log 10). -/
def Obligations.EHoldChangesNothing : Prop :=
  ∀ s : State, EncRests s → s.ports.encStart = false → exec .eHold s = .next s ∧ ∀ m, s.tx m = .idle

/-- R22, R50, R180: in a step of the units the stream grows by the entry the ports show, and by none where `tx_valid` = 0; `tx_last` goes
with the step that reaches `E_DONE`; where the encoder does not move, and in a reset step, which drops an operation without a
`tx_last`, the ports show nothing. That `tx_kind` and `tx_dur` then read 0 is the model's choice (log 10). -/
def Obligations.StreamGrowsByTheOfferedEntry : Prop :=
  ∀ (s t : State) (m : Moves), clock m s = .next t →
    (s.ports.rst = true → s.tx m = .idle ∧ t.txLog = []) ∧
    (m = .dec → s.tx m = .idle) ∧
    (s.ports.rst = false → (s.tx m).valid = false → t.txLog = s.txLog) ∧
    ((s.tx m).valid = true → ∃ e : StreamEntry, t.txLog = s.txLog ++ [e] ∧ e.kind.bit = (s.tx m).kind ∧ e.dur = (s.tx m).dur ∧
      ((s.tx m).last = true ↔ t.enc.state = .done)) ∧
    s.enc.outputs.txFreqKhz = s.enc.freq ∧ s.enc.outputs.txOnce = true

/-- R50: whatever the machine's step is, a whole command and a stream word included, the stream holds after it what it held before and
what that step offered, in order; a reset step offers nothing and leaves the stream empty (R180). That a stream word given by the host
is offered is the model's reading (log 11). -/
def Obligations.StreamHoldsWhatWasOffered : Prop :=
  ∀ s t : State, step s = .next t →
    (s.resets = true → s.offers = [] ∧ t.txLog = []) ∧
    (s.resets = false → t.txLog = s.txLog ++ s.offers.map Offer.entry)

/-- R65, R72: a wire symbol emitted is its entry exactly, offered in that step; nothing else changes. That a symbol run on its own is its
emission, and that it ends no frame, is the model's reading (log 11). -/
def Obligations.WireSymbolsEmitTheirEntries : Prop :=
  ∀ s : State,
    (exec .hdr s = .next { s with txLog := s.txLog ++ [⟨.mark, 2400⟩] } ∧ s.offersOf .hdr = [⟨⟨.mark, 2400⟩, false⟩]) ∧
    (exec .sp s = .next { s with txLog := s.txLog ++ [⟨.space, 600⟩] } ∧ s.offersOf .sp = [⟨⟨.space, 600⟩, false⟩]) ∧
    (exec .one s = .next { s with txLog := s.txLog ++ [⟨.mark, 1200⟩] } ∧ s.offersOf .one = [⟨⟨.mark, 1200⟩, false⟩]) ∧
    (exec .zero s = .next { s with txLog := s.txLog ++ [⟨.mark, 600⟩] } ∧ s.offersOf .zero = [⟨⟨.mark, 600⟩, false⟩])

/-! ### The commands (R100, R109, R110, R130, R136, R140, R186) -/

/-- R186: a command given to a busy unit has no effect at all. -/
def Obligations.CommandToABusyUnitIsIgnored : Prop :=
  ∀ (s : State) (ih : Bool) (len : Len) (v : Value) (n : BitCount) (k : Khz),
    (s.dec.outputs.busy = true → exec (.decode ih len) s = .next s) ∧
    (s.enc.outputs.busy = true → exec (.encode v n k) s = .next s)

/-- R100, R130: a command is its sequence of micro-operations, START and then step by step with the start input at 0. -/
def Obligations.CommandsAreTheirStepSequences : Prop :=
  ∀ s : State, s.ports.rst = false →
    (∀ (ih : Bool) (len : Len), s.dec.outputs.busy = false → s.ports.decStart = false →
      exec (.decode ih len) s = runMoves (List.replicate 67 .dec) { s with dec := DecRegs.start ih len }) ∧
    (∀ (v : Value) (n : BitCount) (k : Khz), s.enc.outputs.busy = false → s.ports.encStart = false →
      exec (.encode v n k) s = runMoves (List.replicate 65 .enc) { s with enc := EncRegs.start v n k })

/-- R109: the DECODE as one function of the sequence, the flag and the tolerance, with `n = (offset - 1) div 2` on success; nothing but
the decoder's registers changes. -/
def Obligations.DecodeComputesTheFunction : Prop :=
  ∀ (s : State) (ih : Bool) (len : Len), s.dec.outputs.busy = false → ∃ t, exec (.decode ih len) s = .next t ∧
    t.dec.result = some (decodeFunction s.tol (s.buf.sequence len.toNat) ih) ∧ t = { s with dec := t.dec } ∧
    (t.dec.outputs.status.toNat = 1 → t.dec.outputs.bitcount.toNat = (t.dec.outputs.offset.toNat - 1) / 2)

/-- R110: after D.START at most `1 + max(len - 2, 0) + 1` steps, and at most 67, bring a DECODE to a terminal state. -/
def Obligations.DecodeEndsWithinTheBound : Prop :=
  ∀ (s : State) (ih : Bool) (len : Len) (n : Nat), s.dec = DecRegs.start ih len → s.ports.rst = false →
    s.ports.decStart = false → min 67 (1 + (len.toNat - 2) + 1) ≤ n →
    ∃ t, runMoves (List.replicate n .dec) s = .next t ∧ t.dec.outputs.done = true

/-- R114: the degenerate lengths. -/
def Obligations.DegenerateLengths : Prop :=
  ∀ (s : State) (len : Len), s.dec.outputs.busy = false →
    (len.toNat < 2 → ∃ t, exec (.decode false len) s = .next t ∧ t.dec.result = some .boundsFault) ∧
    (len.toNat ≤ 2 → ∃ t, exec (.decode true len) s = .next t ∧ t.dec.result = some (.success 0 0 .milestag)) ∧
    (len.toNat = 2 → ∃ t, exec (.decode false len) s = .next t ∧
      (Within s.tol (s.buf.read 1).toNat 2400 → t.dec.result = some (.success 0 0 .milestag)) ∧
      (¬ Within s.tol (s.buf.read 1).toNat 2400 → t.dec.result = some (.headerMarkError .headerMarkDuration))) ∧
    (∀ ih : Bool, len.toNat = 3 → (ih = false → Within s.tol (s.buf.read 1).toNat 2400) →
      ∃ t, exec (.decode ih len) s = .next t ∧
        (Within s.tol (s.buf.read 2).toNat 600 → t.dec.result = some .boundsFault) ∧
        (¬ Within s.tol (s.buf.read 2).toNat 600 → t.dec.result = some (.dataSpaceError .interBitSpaceDuration)))

/-- R44, R114: the outcome depends on no entry but 1 (when `ih` = 0) and those from 2 to `len - 1`. -/
def Obligations.DecodeIgnoresTheOtherEntries : Prop :=
  ∀ (s : State) (b : PulseBuffer) (ih : Bool) (len : Len), s.dec.outputs.busy = false →
    (∀ i, i < len.toNat → (i = 1 ∧ ih = false) ∨ 2 ≤ i → b.read i = s.buf.read i) →
    ∃ t u, exec (.decode ih len) s = .next t ∧ exec (.decode ih len) { s with buf := b } = .next u ∧ t.dec = u.dec

/-- R24, R182: a DECODE, and an ENCODE, sees nothing of an earlier operation: from any two states of rest with the same buffer the
registers after it are the same, and the same entries are emitted. -/
def Obligations.CommandsForgetEarlierOnes : Prop :=
  ∀ s s' : State,
    (∀ (ih : Bool) (len : Len), s.dec.outputs.busy = false → s'.dec.outputs.busy = false → s.buf = s'.buf → s.tol = s'.tol →
      ∃ t t', exec (.decode ih len) s = .next t ∧ exec (.decode ih len) s' = .next t' ∧ t.dec = t'.dec) ∧
    (∀ (v : Value) (n : BitCount) (k : Khz), s.enc.outputs.busy = false → s'.enc.outputs.busy = false →
      ∃ t t' frame, exec (.encode v n k) s = .next t ∧ exec (.encode v n k) s' = .next t' ∧ t.enc = t'.enc ∧
        t.txLog = s.txLog ++ frame ∧ t'.txLog = s'.txLog ++ frame)

/-- R113, R15, R150: a DECODE that fails shows no value and no bit count, and the code and expected duration of its failure; one that
succeeds shows no expected duration. -/
def Obligations.FailedDecodeShowsNoPartialValue : Prop :=
  ∀ (s : State) (ih : Bool) (len : Len), s.dec.outputs.busy = false → ∃ t, exec (.decode ih len) s = .next t ∧
    t.dec.outputs.busy = false ∧ t.dec.outputs.done = true ∧
    (t.dec.outputs.status.toNat ≠ 1 → t.dec.outputs.value = 0 ∧ t.dec.outputs.bitcount = 0 ∧ t.dec.outputs.tag = 0) ∧
    ((t.dec.outputs.status.toNat = 2 ∧ t.dec.outputs.expected = 2400) ∨
      (t.dec.outputs.status.toNat = 3 ∧ t.dec.outputs.expected = 600) ∨
      (t.dec.outputs.status.toNat = 4 ∧ t.dec.outputs.expected = 1200) ∨
      ((t.dec.outputs.status.toNat = 1 ∨ t.dec.outputs.status.toNat = 5 ∨ t.dec.outputs.status.toNat = 6) ∧
        t.dec.outputs.expected = 0))

/-- R188, R15, R17: while the decoder is busy its result ports read 0, by the decoder's invariant. -/
def Obligations.BusyDecoderShowsNoResult : Prop :=
  ∀ d : DecRegs, DecInv d → d.outputs.busy = true →
    d.outputs.done = false ∧ d.outputs.status = 0 ∧ d.outputs.value = 0 ∧ d.outputs.bitcount = 0 ∧ d.outputs.tag = 0 ∧
    d.outputs.expected = 0

/-- R136, R130: the ENCODE as one function: one frame appended, the encoder in `E_DONE` with the request in its registers, nothing
else changed; the entries are offered one by one, with `tx_last` on the final one. -/
def Obligations.EncodeEmitsTheFrame : Prop :=
  ∀ (s : State) (v : Value) (n : BitCount) (k : Khz), s.enc.outputs.busy = false → n.toNat ≤ 32 →
    exec (.encode v n k) s = .next { s with
      txLog := s.txLog ++ encodeFunction v n.toNat
      enc := { state := .done, value := v, remaining := 0, freq := k } } ∧
    (s.offersOf (.encode v n k)).map Offer.entry = encodeFunction v n.toNat ∧
    (s.offersOf (.encode v n k)).map Offer.last = List.replicate (2 * n.toNat) false ++ [true]

/-- R157, R136: more than 32 bits end in EncodeRangeFault with nothing emitted. -/
def Obligations.EncodeRangeFaultEmitsNothing : Prop :=
  ∀ (s : State) (v : Value) (n : BitCount) (k : Khz), s.enc.outputs.busy = false → 32 < n.toNat → ∃ t,
    exec (.encode v n k) s = .next t ∧
    t = { s with enc := { state := .faultRange, value := v, remaining := n, freq := k } } ∧ EncFlags t false true 2

/-- R51, R64, R136: the frame entry by entry: `1 + 2 * bits` of them, the header mark, then space and mark of bit `value[bits-1-k]`. -/
def Obligations.FrameLayout : Prop :=
  ∀ (v : Value) (n : Nat),
    (encodeFunction v n).length = 1 + 2 * n ∧
    (encodeFunction v n)[0]? = some ⟨.mark, 2400⟩ ∧
    ∀ k, k < n →
      (encodeFunction v n)[1 + 2 * k]? = some ⟨.space, 600⟩ ∧
      (encodeFunction v n)[2 + 2 * k]? = some ⟨.mark, if v.toNat / 2 ^ (n - 1 - k) % 2 = 1 then 1200 else 600⟩

/-- R140: after E.START an accepted ENCODE is busy for `2 * bits` more steps and done after `1 + 2 * bits`; a refused one is done at
once. -/
def Obligations.EncodeTakesExactlyItsSteps : Prop :=
  ∀ (s : State) (v : Value) (n : BitCount) (k : Khz), s.enc = EncRegs.start v n k → s.ports.rst = false →
    s.ports.encStart = false →
    (n.toNat ≤ 32 →
      (∀ j, j ≤ 2 * n.toNat → ∃ t, runMoves (List.replicate j .enc) s = .next t ∧ t.enc.outputs.busy = true) ∧
      ∃ t, runMoves (List.replicate (1 + 2 * n.toNat) .enc) s = .next t ∧ t.enc.state = .done) ∧
    (32 < n.toNat → s.enc.state = .faultRange)

/-- R141, R67: the bits of `value` at and above `bits` have no effect on the frame. R138: nor has the carrier frequency. -/
def Obligations.FrameIgnoresUpperBitsAndCarrier : Prop :=
  ∀ (s : State) (v : Value) (n : BitCount) (k k' : Khz), s.enc.outputs.busy = false → ∃ t u,
    exec (.encode v n k) s = .next t ∧
    exec (.encode (BitVec.ofNat 32 (v.toNat % 2 ^ n.toNat)) n k') s = .next u ∧ t.txLog = u.txLog

/-- R139: the round trip. The captured frame, with a gap in front, decodes to the value sent, for every bit count up to 32, either
header choice and every tolerance below one half. -/
def Obligations.DecodeOfEncodeIsTheRequest : Prop :=
  ∀ (s : State) (v : Value) (n : Nat) (g : Dur) (ih : Bool), s.dec.outputs.busy = false → n ≤ 32 → 2 * s.tol.num < s.tol.den →
    s.buf.sequence (2 * n + 2) = g :: (encodeFunction v n).map StreamEntry.dur →
    ∃ t, exec (.decode ih (BitVec.ofNat Config.lenWidth (2 * n + 2))) s = .next t ∧
      t.dec.result = some (.success (v.toNat % 2 ^ n) n .milestag)

/-- R139, R75: the same through the machine: ENCODE, the host's CAPTURE, DECODE (the capture is an action of the model's host, log 4). -/
def Obligations.LoopBackReturnsTheRequest : Prop :=
  ∀ (s : State) (v : Value) (n : BitCount) (k : Khz) (g : Dur) (ih : Bool), s.dec.outputs.busy = false →
    s.enc.outputs.busy = false → n.toNat ≤ 32 → 2 * s.tol.num < s.tol.den →
    ∃ s1 s2 t, exec (.encode v n k) s = .next s1 ∧ act (.capture g) s1 = .next s2 ∧
      exec (.decode ih (BitVec.ofNat Config.lenWidth (2 * n.toNat + 2))) s2 = .next t ∧
      t.dec.result = some (.success (v.toNat % 2 ^ n.toNat) n.toNat .milestag)

/-! ### Two agents (R165, R186, R187) -/

/-- R165: any two interleavings with the same number of decoder steps and of encoder steps end alike (which units move in a step is the host's, log 4). -/
def Obligations.InterleavingsAgree : Prop :=
  ∀ (s : State) (ms ms' : List Moves), s.ports.rst = false → decSteps ms = decSteps ms' → encSteps ms = encSteps ms' →
    runMoves ms s = runMoves ms' s

/-- R186, R187: a busy unit looks at none of its command inputs. -/
def Obligations.BusyUnitsIgnoreTheirCommandInputs : Prop :=
  ∀ (s : State) (p : Inputs) (m : Moves), s.ports.rst = false → p.rst = false →
    (s.dec.outputs.busy = true → p.encStart = s.ports.encStart → p.encValue = s.ports.encValue →
      p.encBitcount = s.ports.encBitcount → p.encFreqKhz = s.ports.encFreqKhz →
      clock m { s with ports := p } =
        andThen (clock m s) fun t => .next { t with ports := p }) ∧
    (s.enc.outputs.busy = true → p.decStart = s.ports.decStart → p.decIgnoreHeader = s.ports.decIgnoreHeader →
      p.decSeqLen = s.ports.decSeqLen →
      clock m { s with ports := p } =
        andThen (clock m s) fun t => .next { t with ports := p })

/-! ### Invariants (R5, R15, R25, R72, R112, R113, R115) -/

/-- The machine's invariant holds after reset, whatever the block's tolerance is. -/
def Obligations.InvariantHoldsAtReset : Prop := Inv State.reset

/-- R115, R15, R25, R72: every step that gives a next state keeps the machine's invariant. -/
def Obligations.EveryStepKeepsTheInvariant : Prop :=
  ∀ s t : State, Inv s → step s = .next t → Inv t

/-- R107 "the table is total": from a state that meets the invariant a step never faults, and it is refused only for the host's own
doing: a stream word that is no symbol, or a write of the buffer that breaks the contract of R48 (both the model's stops, log 9 and
U2). -/
def Obligations.StepStopsForTheHostOnly : Prop :=
  ∀ s : State, Inv s →
    (∃ t, step s = .next t) ∨
    (step s = .refused .undecodableWord ∧ ∃ w rest, s.script = .word (.streamEntry w) :: rest) ∨
    (step s = .refused .bufferContract ∧ s.dec.outputs.busy = true ∧ 0 < s.dec.len.toNat ∧ ∃ a rest, s.script = a :: rest ∧
      ((∃ i d, a = .store i d ∧ i.toNat < s.dec.len.toNat) ∨ (∃ es, a = .buf es) ∨ ∃ g, a = .capture g))

/-! ### Frames (R27) -/

/-- R10, R27, R40: a decoder operation changes the decoder's registers only; every entry of the buffer reads as before. -/
def Obligations.DecoderOperationsFrame : Prop :=
  ∀ (s t : State) (i : Instr), (i ∈ decMicroOps ∨ ∃ ih len, i = .decode ih len) → exec i s = .next t →
    t.enc = s.enc ∧ t.txLog = s.txLog ∧ (∀ a, t.buf.read a = s.buf.read a ∧ t.buf.entry? a = s.buf.entry? a) ∧
    t.ports = s.ports ∧ t.tol = s.tol ∧ t.matchAnswer = s.matchAnswer ∧ t.script = s.script

/-- R27: the columns of the decoder's micro-operations: what each of them leaves as it was. -/
def Obligations.DecoderAccessTable : Prop :=
  ∀ (s t : State) (i : Instr), i ∈ decMicroOps → exec i s = .next t →
    (i ≠ .dStart → t.dec.ih = s.dec.ih ∧ t.dec.len = s.dec.len) ∧
    (i ≠ .dStart → i ≠ .dSpace → i ≠ .dMark → t.dec.offset = s.dec.offset) ∧
    (i ≠ .dStart → i ≠ .dMark → t.dec.value = s.dec.value) ∧
    (i ≠ .dStart → i ≠ .dFinish → t.dec.rValue = s.dec.rValue ∧ t.dec.rBitcount = s.dec.rBitcount) ∧
    (i = .dFinish ∨ i = .dHold → t.dec.rExpected = s.dec.rExpected)

/-- R10, R27, R40, R50: an encoder operation or a wire symbol changes the encoder's registers and appends to the stream, at most; of
the registers only E.START and ENCODE write `e_value` and `e_freq`, and of the micro-operations only E.START and E.MARK write
`e_remaining`; a wire symbol writes no register. That a wire symbol run on its own only appends its entry is the model's choice
(log 11). -/
def Obligations.EncoderOperationsFrame : Prop :=
  ∀ (s t : State) (i : Instr), (i ∈ encMicroOps ∨ i ∈ wireSymbols ∨ ∃ v n k, i = .encode v n k) → exec i s = .next t →
    t.dec = s.dec ∧ (∀ a, t.buf.read a = s.buf.read a ∧ t.buf.entry? a = s.buf.entry? a) ∧
    t.ports = s.ports ∧ t.tol = s.tol ∧ t.matchAnswer = s.matchAnswer ∧ t.script = s.script ∧
    s.txLog <+: t.txLog ∧
    (i ∈ encMicroOps → i ≠ .eStart → t.enc.value = s.enc.value ∧ t.enc.freq = s.enc.freq) ∧
    (i ∈ encMicroOps → i ≠ .eStart → i ≠ .eMark → t.enc.remaining = s.enc.remaining) ∧
    (i ∈ wireSymbols → t.enc = s.enc)

/-! ### Reset (R28, R180) -/

/-- R28: the registers and the output ports after reset. -/
def Obligations.ResetValues : Prop :=
  State.reset.dec =
    { state := .idle, offset := 0, value := 0, ih := false, len := 0, rValue := 0, rBitcount := 0, rExpected := 0 } ∧
  State.reset.enc = { state := .idle, value := 0, remaining := 0, freq := 0 } ∧
  State.reset.txLog = [] ∧
  State.reset.dec.outputs =
    { busy := false, done := false, status := 0, value := 0, bitcount := 0, tag := 0, expected := 0, offset := 0 } ∧
  State.reset.enc.outputs = { busy := false, done := false, status := 0, txFreqKhz := 0, txOnce := true } ∧
  ∀ m, State.reset.bufAddr m = 0 ∧ State.reset.tx m = { valid := false, kind := 0, dur := 0, last := false }

/-- R180: a step with `rst` = 1 puts every register at its reset value and touches neither the buffer nor the constants nor the ports,
reads no entry and offers none; it is the same whether the host drives the ports in that step, or gives a word, which then has no
other effect, or does nothing. The action is taken off the host's list (log 4), and the model's record of a MATCH is cleared (log 6).
That `buf_addr` and the tx ports are 0 in that step is deduced, and for `tx_kind` and `tx_dur` the model's choice (log 10). -/
def Obligations.ResetStepDoesNothingElse : Prop :=
  ∀ (s : State) (m : Moves) (p : Inputs) (w : HostWord) (rest : List HostAction),
    let r := { s with dec := State.reset.dec, enc := State.reset.enc, txLog := [], matchAnswer := none }
    (p.rst = true → s.script = .drive p m :: rest →
      step s = .next { r with ports := p, script := rest } ∧ (s.withPorts p).bufAddr m = 0 ∧ (s.withPorts p).tx m = .idle) ∧
    (s.ports.rst = true → s.script = .word w :: rest → step s = .next { r with script := rest } ∧ s.offers = []) ∧
    (s.ports.rst = true → s.script = [] → step s = .next r ∧ s.bufAddr m = 0 ∧ s.tx m = .idle)

/-! ### The status codes (R69, R70) and the buffer's host side (R41, R48, R185) -/

/-- R69, R70: the codes of the sequencing states; 7 and 3 are never produced. -/
def Obligations.StatusCodes : Prop :=
  (∀ d : DecRegs, d.outputs.status.toNat =
    match d.state with
    | .idle | .expectHeader | .expectSpace | .expectMark => 0
    | .success => 1
    | .errHeaderMark => 2
    | .errDataSpace => 3
    | .errDataMark => 4
    | .faultBounds => 5
    | .faultCapacity => 6) ∧
  (∀ e : EncRegs, e.outputs.status.toNat =
    match e.state with
    | .idle | .emitHeader | .emitSpace | .emitMark => 0
    | .done => 1
    | .faultRange => 2) ∧
  (∀ d : DecRegs, d.outputs.status ≠ 7) ∧ ∀ e : EncRegs, e.outputs.status ≠ 3

/-- R41, R48, R185, U2: the step in which the host writes one entry: it is read back and every other entry is as before, and nothing
else changes but the host's list; during a scan a write below `d_len` is refused by the model (U2 lets a model refuse; log 4). -/
def Obligations.HostStoreWritesOneEntry : Prop :=
  ∀ (s : State) (i : Len) (d : Dur) (rest : List HostAction), s.buf.wf = true → s.script = .store i d :: rest →
    ((s.dec.outputs.busy = false ∨ s.dec.len.toNat ≤ i.toNat) → ∃ t, step s = .next t ∧
      t = { s with buf := t.buf, script := rest } ∧ t.buf.read i.toNat = d ∧
      ∀ a, a ≠ i.toNat → t.buf.read a = s.buf.read a ∧ t.buf.entry? a = s.buf.entry? a) ∧
    (s.dec.outputs.busy = true → i.toNat < s.dec.len.toNat → step s = .refused .bufferContract)

/-- R75: after the step that carries out the script line BUF the buffer holds the sequence written, entry 0 first, and nothing past it;
nothing else changes but the host's list (an action of the model's host, log 4). -/
def Obligations.BufLineFillsTheBuffer : Prop :=
  ∀ (s : State) (es : List Dur) (rest : List HostAction), s.script = .buf es :: rest →
    (s.dec.outputs.busy = false ∨ s.dec.len.toNat = 0 → ∃ t, step s = .next t ∧
      t = { s with buf := t.buf, script := rest } ∧ t.buf.sequence es.length = es ∧ ∀ a, t.buf.entry? a = es[a]?) ∧
    (s.dec.outputs.busy = true → 0 < s.dec.len.toNat → step s = .refused .bufferContract)

/-- R75, R43: after the step that carries out CAPTURE the buffer holds the gap and the durations of the last frame on the stream, for
every frame an ENCODE can have emitted last; nothing else changes but the host's list (an action of the model's host, log 4). -/
def Obligations.CaptureTakesTheLastFrame : Prop :=
  ∀ (s : State) (g : Dur) (rest : List HostAction) (log : List StreamEntry) (v : Value) (n : Nat),
    s.script = .capture g :: rest → s.txLog = log ++ encodeFunction v n →
    (s.dec.outputs.busy = false ∨ s.dec.len.toNat = 0 → ∃ t, step s = .next t ∧
      t = { s with buf := t.buf, script := rest } ∧
      t.buf.sequence (2 * n + 2) = g :: (encodeFunction v n).map StreamEntry.dur) ∧
    (s.dec.outputs.busy = true → 0 < s.dec.len.toNat → step s = .refused .bufferContract)

end
end

