-- ==== Sys2Proof/Laws/Buffer.lean ====
section
/-! SUPPORT. The laws of the pulse buffer: a read after a write, the canonical form kept by every operation, the sequence a buffer was
made from. -/

namespace Sys2Proof.Machine

/-- The host's write of entry `i` is read back at `i`, and every other entry is as before. -/
theorem PulseBuffer.entry?_write (b : PulseBuffer) (i j : Nat) (d : Dur) (h : b.wf = true) :
    (b.write i d).entry? j = if j = i then some d else b.entry? j := by
  suffices H : ∀ (n : Nat), PulseBuffer.risesFrom n b = true →
      (b.write i d).entry? j = if j = i then some d else b.entry? j from H 0 h
  clear h
  induction b with
  | nil => intro n _; simp [PulseBuffer.write, PulseBuffer.entry?, eq_comm]
  | cons c rest ih =>
    obtain ⟨k, e⟩ := c
    intro n hn
    simp only [PulseBuffer.risesFrom, Bool.and_eq_true, decide_eq_true_eq] at hn
    simp only [PulseBuffer.write]
    split
    · by_cases hj : j = i
      · simp [PulseBuffer.entry?, hj]
      · simp [PulseBuffer.entry?, hj, Ne.symm hj]
    · split
      · subst i
        by_cases hj : j = k
        · simp [PulseBuffer.entry?, hj]
        · simp [PulseBuffer.entry?, hj, Ne.symm hj]
      · simp only [PulseBuffer.entry?, ih (k + 1) hn.2]
        by_cases hk : k = j
        · subst hk
          simp [show k ≠ i from fun h => by omega]
        · simp [hk]

theorem PulseBuffer.risesFrom_write (b : PulseBuffer) (n i : Nat) (d : Dur) (hi : n ≤ i)
    (h : PulseBuffer.risesFrom n b = true) : PulseBuffer.risesFrom n (b.write i d) = true := by
  induction b generalizing n with
  | nil => simp [PulseBuffer.write, PulseBuffer.risesFrom, hi]
  | cons c rest ih =>
    obtain ⟨k, e⟩ := c
    simp only [PulseBuffer.risesFrom, Bool.and_eq_true, decide_eq_true_eq] at h
    simp only [PulseBuffer.write]
    split
    · rename_i hik
      simp only [PulseBuffer.risesFrom, Bool.and_eq_true, decide_eq_true_eq]
      exact ⟨hi, by omega, h.2⟩
    · split
      · subst i
        simp only [PulseBuffer.risesFrom, Bool.and_eq_true, decide_eq_true_eq]
        exact ⟨hi, h.2⟩
      · simp only [PulseBuffer.risesFrom, Bool.and_eq_true, decide_eq_true_eq]
        exact ⟨h.1, ih (k + 1) (by omega) h.2⟩

/-- A write keeps the canonical form. -/
theorem PulseBuffer.write_wf (b : PulseBuffer) (i : Nat) (d : Dur) (h : b.wf = true) : (b.write i d).wf = true :=
  PulseBuffer.risesFrom_write b 0 i d (Nat.zero_le i) h

theorem PulseBuffer.risesFrom_ofListFrom (ds : List Dur) (n i : Nat) (h : n ≤ i) :
    PulseBuffer.risesFrom n (PulseBuffer.ofListFrom i ds) = true := by
  induction ds generalizing n i with
  | nil => rfl
  | cons d ds ih => simp [PulseBuffer.ofListFrom, PulseBuffer.risesFrom, h, ih]

/-- A buffer made from a sequence is in canonical form. -/
theorem PulseBuffer.ofList_wf (ds : List Dur) : (PulseBuffer.ofList ds).wf = true :=
  PulseBuffer.risesFrom_ofListFrom ds 0 0 (Nat.le_refl 0)

theorem PulseBuffer.entry?_ofListFrom (ds : List Dur) (i j : Nat) :
    (PulseBuffer.ofListFrom i ds).entry? j = if j < i then none else ds[j - i]? := by
  induction ds generalizing i with
  | nil => simp [PulseBuffer.ofListFrom, PulseBuffer.entry?]
  | cons d ds ih =>
    simp only [PulseBuffer.ofListFrom, PulseBuffer.entry?, ih]
    by_cases h : i = j
    · subst h; simp
    · by_cases h' : j < i
      · simp [h, h', show j < i + 1 by omega]
      · simp only [h, h', if_false, show ¬ j < i + 1 by omega]
        rw [show j - i = (j - (i + 1)) + 1 by omega, List.getElem?_cons_succ]

/-- A buffer made from a sequence holds exactly its entries. -/
theorem PulseBuffer.entry?_ofList (ds : List Dur) (j : Nat) : (PulseBuffer.ofList ds).entry? j = ds[j]? := by
  simp [PulseBuffer.ofList, PulseBuffer.entry?_ofListFrom]

/-- The empty buffer is in canonical form. -/
theorem PulseBuffer.nil_wf : PulseBuffer.wf [] = true := rfl

/-- A filled entry is read as it stands. -/
theorem PulseBuffer.read_of_entry? {b : PulseBuffer} {i : Nat} {d : Dur} (h : b.entry? i = some d) : b.read i = d := by
  simp [PulseBuffer.read, h]

/-- Reading a buffer made from a sequence as a sequence of its length gives the sequence back. -/
theorem PulseBuffer.sequence_ofList (ds : List Dur) : (PulseBuffer.ofList ds).sequence ds.length = ds := by
  apply List.ext_getElem?
  intro n
  simp only [PulseBuffer.sequence, List.getElem?_map]
  by_cases h : n < ds.length
  · simp [h, PulseBuffer.read, PulseBuffer.entry?_ofList]
  · simp [h]

end Sys2Proof.Machine
end

