-- ==== Sys2Proof/Laws/Operands.lean ====
section
/-! SUPPORT. The operand forms in arithmetic: the matcher on its two sides, the classifier's three answers, the appended bit as a
number, the counts the decoder takes from `offset`. -/

namespace Sys2Proof

/-- R5, D4: `DUR_WIDTH` is at least 12. -/
theorem Config.durWidth_ge : 12 ≤ Config.durWidth := by decide

/-- R5, D5: `LEN_WIDTH` is at least 7. -/
theorem Config.lenWidth_ge : 7 ≤ Config.lenWidth := by decide

/-- A number below 2^12 is a duration as it stands, whatever the width of durations. -/
theorem mod_durWidth {n : Nat} (h : n < 2 ^ 12) : n % 2 ^ Config.durWidth = n :=
  Nat.mod_eq_of_lt (Nat.lt_of_lt_of_le h (Nat.pow_le_pow_right (by decide) Config.durWidth_ge))

/-- A number below 2^7 is an index as it stands, whatever the width of indices. -/
theorem mod_lenWidth {n : Nat} (h : n < 2 ^ 7) : n % 2 ^ Config.lenWidth = n :=
  Nat.mod_eq_of_lt (Nat.lt_of_lt_of_le h (Nat.pow_le_pow_right (by decide) Config.lenWidth_ge))

/-- The numbers of the spec's text that are durations and indices. -/
@[simp] theorem mod_durWidth_2400 : 2400 % 2 ^ Config.durWidth = 2400 := mod_durWidth (by decide)
@[simp] theorem mod_durWidth_1200 : 1200 % 2 ^ Config.durWidth = 1200 := mod_durWidth (by decide)
@[simp] theorem mod_durWidth_600 : 600 % 2 ^ Config.durWidth = 600 := mod_durWidth (by decide)
@[simp] theorem mod_lenWidth_1 : 1 % 2 ^ Config.lenWidth = 1 := mod_lenWidth (by decide)
@[simp] theorem mod_lenWidth_2 : 2 % 2 ^ Config.lenWidth = 2 := mod_lenWidth (by decide)

end Sys2Proof

namespace Sys2Proof.Machine

/-- `|a - b|` as the absolute value of the integer difference. -/
theorem absDiff_eq_natAbs (a b : Nat) : absDiff a b = ((a : Int) - (b : Int)).natAbs := by
  unfold absDiff; omega

/-- MATCH on either side of the nominal (R91). -/
theorem matchDuration_iff (t : Tolerance) (m nom : Dur) :
    matchDuration t m nom = true ↔
      t.den * (m.toNat - nom.toNat) ≤ t.num * nom.toNat ∧ t.den * (nom.toNat - m.toNat) ≤ t.num * nom.toNat := by
  rw [matchDuration, decide_eq_true_eq, absDiff]
  rcases Nat.le_total m.toNat nom.toNat with h | h
  · simp [Nat.sub_eq_zero_of_le h]
  · simp [Nat.sub_eq_zero_of_le h]

/-- Every nominal matches itself (R95). -/
@[simp] theorem matchDuration_self (t : Tolerance) (nom : Dur) : matchDuration t nom nom = true := by
  simp [matchDuration_iff]

/-- Below one half an emitted `ZERO` is never taken for a `ONE` (R95). -/
theorem zeroMark_not_one {t : Tolerance} (h : 2 * t.num < t.den) : matchDuration t 600#Config.durWidth 1200#Config.durWidth = false := by
  rw [Bool.eq_false_iff, ne_eq, matchDuration_iff]
  simp only [BitVec.toNat_ofNat, mod_durWidth_600, mod_durWidth_1200]
  omega

/-- The classifier's answer to a 1 (R93). -/
theorem classifyMark_one (t : Tolerance) : classifyMark t 1200#Config.durWidth = some true := by
  have : matchDuration t 1200#Config.durWidth Config.oneMark = true := matchDuration_self t 1200#Config.durWidth
  simp [classifyMark, this]

/-- The classifier's answer to an exact 0, below one half (R93, R95). -/
theorem classifyMark_zero {t : Tolerance} (h : 2 * t.num < t.den) : classifyMark t 600#Config.durWidth = some false := by
  have h1 : matchDuration t 600#Config.durWidth Config.oneMark = false := zeroMark_not_one h
  have h0 : matchDuration t 600#Config.durWidth Config.zeroMark = true := matchDuration_self t 600#Config.durWidth
  simp [classifyMark, h1, h0]

/-- `(value << 1) | b` is `2 * value + b` on 32 bits (R6, R66). -/
theorem appendBit_toNat (v : Value) (b : Bool) : (appendBit v b).toNat = (2 * v.toNat + b.toNat) % 2 ^ 32 := by
  have hv := v.isLt
  have h2 : (v <<< 1).toNat = 2 * (v.toNat % 2 ^ 31) := by
    rw [BitVec.toNat_shiftLeft, Nat.shiftLeft_eq]; omega
  cases b
  · simp only [appendBit, Bool.false_eq_true, if_false, Bool.toNat_false]
    rw [show (v <<< 1 ||| (0 : Value)) = v <<< 1 by simp, h2]; omega
  · simp only [appendBit, if_true, Bool.toNat_true]
    rw [BitVec.toNat_or, h2]
    have : (1 : Value).toNat = 1 := rfl
    rw [this, ← Nat.two_pow_add_eq_or_of_lt (i := 1) (b := 1) (by omega) (v.toNat % 2 ^ 31)]
    omega

/-- No bit is lost while fewer than 32 are held (R112). -/
theorem appendBit_toNat_of_lt {v : Value} {n : Nat} (b : Bool) (hn : n < 32) (hv : v.toNat < 2 ^ n) :
    (appendBit v b).toNat = 2 * v.toNat + b.toNat := by
  have hp : 2 ^ n ≤ 2 ^ 31 := Nat.pow_le_pow_right (by omega) (by omega)
  have hb : b.toNat ≤ 1 := Bool.toNat_le b
  rw [appendBit_toNat, Nat.mod_eq_of_lt (by omega)]

/-- `value < 2^n` after `n` bits (R112, R115 e). -/
theorem appendBit_lt {v : Value} {n : Nat} (b : Bool) (hn : n < 32) (hv : v.toNat < 2 ^ n) :
    (appendBit v b).toNat < 2 ^ (n + 1) := by
  have hb : b.toNat ≤ 1 := Bool.toNat_le b
  rw [appendBit_toNat_of_lt b hn hv, Nat.pow_succ]
  omega

/-- The counter of entries steps by one below its limit (R12). -/
theorem offset_succ_toNat {o : Len} (h : o.toNat < 2 ^ Config.lenWidth - 1) : (o + 1).toNat = o.toNat + 1 := by
  rw [BitVec.toNat_add]
  have : (1 : Len).toNat = 1 := rfl
  rw [this, Nat.mod_eq_of_lt (by omega)]

/-- The bit count read as a number, for an offset a scan can end with (R105). -/
theorem scanBitCount_toNat {o : Len} (h : o.toNat ≤ 67) : (scanBitCount o).toNat = (o.toNat - 1) / 2 := by
  simp only [scanBitCount, BitVec.toNat_ofNat]
  omega

end Sys2Proof.Machine
end

