-- ==== Sys2Proof/Laws/State.lean ====
section
/-! SUPPORT. What each named update of the state does to each field, so that no later proof unfolds a record update. -/

namespace Sys2Proof.Machine

variable (s : State)

@[simp] theorem State.withDec_dec (d : DecRegs) : (s.withDec d).dec = d := rfl
@[simp] theorem State.withDec_enc (d : DecRegs) : (s.withDec d).enc = s.enc := rfl
@[simp] theorem State.withDec_tol (d : DecRegs) : (s.withDec d).tol = s.tol := rfl
@[simp] theorem State.withDec_ports (d : DecRegs) : (s.withDec d).ports = s.ports := rfl
@[simp] theorem State.withDec_buf (d : DecRegs) : (s.withDec d).buf = s.buf := rfl
@[simp] theorem State.withDec_txLog (d : DecRegs) : (s.withDec d).txLog = s.txLog := rfl
@[simp] theorem State.withDec_matchAnswer (d : DecRegs) : (s.withDec d).matchAnswer = s.matchAnswer := rfl
@[simp] theorem State.withDec_script (d : DecRegs) : (s.withDec d).script = s.script := rfl

@[simp] theorem State.withEnc_dec (e : EncRegs) : (s.withEnc e).dec = s.dec := rfl
@[simp] theorem State.withEnc_enc (e : EncRegs) : (s.withEnc e).enc = e := rfl
@[simp] theorem State.withEnc_tol (e : EncRegs) : (s.withEnc e).tol = s.tol := rfl
@[simp] theorem State.withEnc_ports (e : EncRegs) : (s.withEnc e).ports = s.ports := rfl
@[simp] theorem State.withEnc_buf (e : EncRegs) : (s.withEnc e).buf = s.buf := rfl
@[simp] theorem State.withEnc_txLog (e : EncRegs) : (s.withEnc e).txLog = s.txLog := rfl
@[simp] theorem State.withEnc_matchAnswer (e : EncRegs) : (s.withEnc e).matchAnswer = s.matchAnswer := rfl
@[simp] theorem State.withEnc_script (e : EncRegs) : (s.withEnc e).script = s.script := rfl

@[simp] theorem State.withPorts_dec (p : Inputs) : (s.withPorts p).dec = s.dec := rfl
@[simp] theorem State.withPorts_enc (p : Inputs) : (s.withPorts p).enc = s.enc := rfl
@[simp] theorem State.withPorts_tol (p : Inputs) : (s.withPorts p).tol = s.tol := rfl
@[simp] theorem State.withPorts_ports (p : Inputs) : (s.withPorts p).ports = p := rfl
@[simp] theorem State.withPorts_buf (p : Inputs) : (s.withPorts p).buf = s.buf := rfl
@[simp] theorem State.withPorts_txLog (p : Inputs) : (s.withPorts p).txLog = s.txLog := rfl
@[simp] theorem State.withPorts_matchAnswer (p : Inputs) : (s.withPorts p).matchAnswer = s.matchAnswer := rfl
@[simp] theorem State.withPorts_script (p : Inputs) : (s.withPorts p).script = s.script := rfl

@[simp] theorem State.withBuf_dec (b : PulseBuffer) : (s.withBuf b).dec = s.dec := rfl
@[simp] theorem State.withBuf_enc (b : PulseBuffer) : (s.withBuf b).enc = s.enc := rfl
@[simp] theorem State.withBuf_tol (b : PulseBuffer) : (s.withBuf b).tol = s.tol := rfl
@[simp] theorem State.withBuf_ports (b : PulseBuffer) : (s.withBuf b).ports = s.ports := rfl
@[simp] theorem State.withBuf_buf (b : PulseBuffer) : (s.withBuf b).buf = b := rfl
@[simp] theorem State.withBuf_txLog (b : PulseBuffer) : (s.withBuf b).txLog = s.txLog := rfl
@[simp] theorem State.withBuf_matchAnswer (b : PulseBuffer) : (s.withBuf b).matchAnswer = s.matchAnswer := rfl
@[simp] theorem State.withBuf_script (b : PulseBuffer) : (s.withBuf b).script = s.script := rfl

@[simp] theorem State.withMatchAnswer_dec (r : Bool) : (s.withMatchAnswer r).dec = s.dec := rfl
@[simp] theorem State.withMatchAnswer_enc (r : Bool) : (s.withMatchAnswer r).enc = s.enc := rfl
@[simp] theorem State.withMatchAnswer_tol (r : Bool) : (s.withMatchAnswer r).tol = s.tol := rfl
@[simp] theorem State.withMatchAnswer_ports (r : Bool) : (s.withMatchAnswer r).ports = s.ports := rfl
@[simp] theorem State.withMatchAnswer_buf (r : Bool) : (s.withMatchAnswer r).buf = s.buf := rfl
@[simp] theorem State.withMatchAnswer_txLog (r : Bool) : (s.withMatchAnswer r).txLog = s.txLog := rfl
@[simp] theorem State.withMatchAnswer_matchAnswer (r : Bool) : (s.withMatchAnswer r).matchAnswer = some r := rfl
@[simp] theorem State.withMatchAnswer_script (r : Bool) : (s.withMatchAnswer r).script = s.script := rfl

@[simp] theorem State.withScript_dec (a : List HostAction) : (s.withScript a).dec = s.dec := rfl
@[simp] theorem State.withScript_enc (a : List HostAction) : (s.withScript a).enc = s.enc := rfl
@[simp] theorem State.withScript_tol (a : List HostAction) : (s.withScript a).tol = s.tol := rfl
@[simp] theorem State.withScript_ports (a : List HostAction) : (s.withScript a).ports = s.ports := rfl
@[simp] theorem State.withScript_buf (a : List HostAction) : (s.withScript a).buf = s.buf := rfl
@[simp] theorem State.withScript_txLog (a : List HostAction) : (s.withScript a).txLog = s.txLog := rfl
@[simp] theorem State.withScript_matchAnswer (a : List HostAction) : (s.withScript a).matchAnswer = s.matchAnswer := rfl
@[simp] theorem State.withScript_script (a : List HostAction) : (s.withScript a).script = a := rfl

@[simp] theorem State.emit_dec (k : Kind) (d : Dur) : (s.emit k d).dec = s.dec := rfl
@[simp] theorem State.emit_enc (k : Kind) (d : Dur) : (s.emit k d).enc = s.enc := rfl
@[simp] theorem State.emit_tol (k : Kind) (d : Dur) : (s.emit k d).tol = s.tol := rfl
@[simp] theorem State.emit_ports (k : Kind) (d : Dur) : (s.emit k d).ports = s.ports := rfl
@[simp] theorem State.emit_buf (k : Kind) (d : Dur) : (s.emit k d).buf = s.buf := rfl
@[simp] theorem State.emit_txLog (k : Kind) (d : Dur) : (s.emit k d).txLog = s.txLog ++ [⟨k, d⟩] := rfl
@[simp] theorem State.emit_matchAnswer (k : Kind) (d : Dur) : (s.emit k d).matchAnswer = s.matchAnswer := rfl
@[simp] theorem State.emit_script (k : Kind) (d : Dur) : (s.emit k d).script = s.script := rfl

@[simp] theorem State.emitSymbol_dec (x : Symbol) : (s.emitSymbol x).dec = s.dec := rfl
@[simp] theorem State.emitSymbol_enc (x : Symbol) : (s.emitSymbol x).enc = s.enc := rfl
@[simp] theorem State.emitSymbol_tol (x : Symbol) : (s.emitSymbol x).tol = s.tol := rfl
@[simp] theorem State.emitSymbol_ports (x : Symbol) : (s.emitSymbol x).ports = s.ports := rfl
@[simp] theorem State.emitSymbol_buf (x : Symbol) : (s.emitSymbol x).buf = s.buf := rfl
@[simp] theorem State.emitSymbol_txLog (x : Symbol) : (s.emitSymbol x).txLog = s.txLog ++ [x.entry] := rfl
@[simp] theorem State.emitSymbol_matchAnswer (x : Symbol) : (s.emitSymbol x).matchAnswer = s.matchAnswer := rfl
@[simp] theorem State.emitSymbol_script (x : Symbol) : (s.emitSymbol x).script = s.script := rfl

@[simp] theorem State.hardReset_dec : s.hardReset.dec = .reset := rfl
@[simp] theorem State.hardReset_enc : s.hardReset.enc = .reset := rfl
@[simp] theorem State.hardReset_tol : s.hardReset.tol = s.tol := rfl
@[simp] theorem State.hardReset_ports : s.hardReset.ports = s.ports := rfl
@[simp] theorem State.hardReset_buf : s.hardReset.buf = s.buf := rfl
@[simp] theorem State.hardReset_txLog : s.hardReset.txLog = [] := rfl
@[simp] theorem State.hardReset_matchAnswer : s.hardReset.matchAnswer = none := rfl
@[simp] theorem State.hardReset_script : s.hardReset.script = s.script := rfl

/-- Writing back what a field holds changes nothing. -/
@[simp] theorem State.withDec_self : s.withDec s.dec = s := rfl
@[simp] theorem State.withEnc_self : s.withEnc s.enc = s := rfl
@[simp] theorem State.withScript_self : s.withScript s.script = s := rfl

/-- The last of two writes of one field stays. -/
@[simp] theorem State.withDec_withDec (d d' : DecRegs) : (s.withDec d).withDec d' = s.withDec d' := rfl
@[simp] theorem State.withEnc_withEnc (e e' : EncRegs) : (s.withEnc e).withEnc e' = s.withEnc e' := rfl

end Sys2Proof.Machine
end

