-- ==== Sys2Proof/Laws/Decoder.lean ====
section
/-! SUPPORT. The decoder: what `raise` writes, everything one scanning step can do, that a scan ends, and that every step of a scan
keeps the decoder's invariant. -/

namespace Sys2Proof.Machine

/-! ### raise -/

section raise
variable (d : DecRegs) (x : DecFailure)

@[simp] theorem DecRegs.raise_state : (d.raise x).state = x.terminal := by cases x <;> rfl
@[simp] theorem DecRegs.raise_offset : (d.raise x).offset = d.offset := by cases x <;> rfl
@[simp] theorem DecRegs.raise_value : (d.raise x).value = d.value := by cases x <;> rfl
@[simp] theorem DecRegs.raise_ih : (d.raise x).ih = d.ih := by cases x <;> rfl
@[simp] theorem DecRegs.raise_len : (d.raise x).len = d.len := by cases x <;> rfl
@[simp] theorem DecRegs.raise_rValue : (d.raise x).rValue = d.rValue := by cases x <;> rfl
@[simp] theorem DecRegs.raise_rBitcount : (d.raise x).rBitcount = d.rBitcount := by cases x <;> rfl
@[simp] theorem DecRegs.raise_rExpected :
    (d.raise x).rExpected = (x.expected.map ExpectedDuration.portValue).getD d.rExpected := by cases x <;> rfl

end raise

/-! ### One step of a scan -/

/-- Everything a step of a scan can do (R102 to R105), with the condition of each case. -/
inductive ScanCase (t : Tolerance) (b : PulseBuffer) (d : DecRegs) : DecRegs → Prop where
  | noHeader (h : d.state = .expectHeader) (hl : d.len.toNat < 2) : ScanCase t b d (d.raise .boundsFault)
  | header (h : d.state = .expectHeader) (hl : 2 ≤ d.len.toNat) (hm : matchDuration t (b.read 1) 2400#Config.durWidth = true) :
      ScanCase t b d { d with state := .expectSpace }
  | badHeader (h : d.state = .expectHeader) (hl : 2 ≤ d.len.toNat) (hm : matchDuration t (b.read 1) 2400#Config.durWidth = false) :
      ScanCase t b d (d.raise .headerMarkError)
  | space (h : d.state = .expectSpace) (hl : d.offset.toNat < d.len.toNat)
      (hm : matchDuration t (b.read d.offset.toNat) 600#Config.durWidth = true) :
      ScanCase t b d { d with offset := d.offset + 1, state := .expectMark }
  | badSpace (h : d.state = .expectSpace) (hl : d.offset.toNat < d.len.toNat)
      (hm : matchDuration t (b.read d.offset.toNat) 600#Config.durWidth = false) : ScanCase t b d (d.raise .dataSpaceError)
  | finish (h : d.state = .expectSpace) (hl : d.len.toNat ≤ d.offset.toNat) :
      ScanCase t b d { d with rValue := d.value, rBitcount := scanBitCount d.offset, state := .success }
  | noMark (h : d.state = .expectMark) (hl : d.len.toNat ≤ d.offset.toNat) : ScanCase t b d (d.raise .boundsFault)
  | badMark (h : d.state = .expectMark) (hl : d.offset.toNat < d.len.toNat)
      (hc : classifyMark t (b.read d.offset.toNat) = none) : ScanCase t b d (d.raise .dataMarkError)
  | full (h : d.state = .expectMark) (hl : d.offset.toNat < d.len.toNat) (bit : Bool)
      (hc : classifyMark t (b.read d.offset.toNat) = some bit) (hf : (d.offset.toNat - 3) / 2 = 32) :
      ScanCase t b d (d.raise .capacityFault)
  | mark (h : d.state = .expectMark) (hl : d.offset.toNat < d.len.toNat) (bit : Bool)
      (hc : classifyMark t (b.read d.offset.toNat) = some bit) (hf : (d.offset.toNat - 3) / 2 ≠ 32) :
      ScanCase t b d { d with value := appendBit d.value bit, offset := d.offset + 1, state := .expectSpace }

/-- The inversion lemma of a scanning step: one of the cases above holds. -/
theorem DecRegs.scanStep_cases (t : Tolerance) (b : PulseBuffer) (d : DecRegs) (h : d.busy = true) :
    ScanCase t b d (d.scanStep t b) := by
  cases hs : d.state <;> simp [DecRegs.busy, hs, DState.scanning] at h
  · simp only [DecRegs.scanStep, hs, DecRegs.headerStep]
    split
    · exact .noHeader hs ‹_›
    · split
      · exact .header hs (by omega) ‹_›
      · exact .badHeader hs (by omega) (Bool.eq_false_of_not_eq_true ‹_›)
  · simp only [DecRegs.scanStep, hs]
    split
    · simp only [DecRegs.spaceStep]
      split
      · exact .space hs ‹_› ‹_›
      · exact .badSpace hs ‹_› (Bool.eq_false_of_not_eq_true ‹_›)
    · exact .finish hs (by omega)
  · simp only [DecRegs.scanStep, hs, DecRegs.markStep]
    split
    · exact .noMark hs ‹_›
    · split
      · exact .badMark hs (by omega) ‹_›
      · split
        · exact .full hs (by omega) _ ‹_› ‹_›
        · exact .mark hs (by omega) _ ‹_› ‹_›

/-- A unit at rest is not moved by a scanning step. -/
theorem DecRegs.scanStep_rest (t : Tolerance) (b : PulseBuffer) (d : DecRegs) (h : d.busy = false) : d.scanStep t b = d := by
  cases hs : d.state <;> simp [DecRegs.busy, hs, DState.scanning] at h <;> simp [DecRegs.scanStep, hs]

/-! ### The run of a scan -/

@[simp] theorem DecRegs.scanRun_zero (t : Tolerance) (b : PulseBuffer) (d : DecRegs) : DecRegs.scanRun t b 0 d = d := rfl

theorem DecRegs.scanRun_rest (t : Tolerance) (b : PulseBuffer) (n : Nat) (d : DecRegs) (h : d.busy = false) :
    DecRegs.scanRun t b n d = d := by
  cases n <;> simp [DecRegs.scanRun, h]

/-- A run is a step and a run. -/
theorem DecRegs.scanRun_succ (t : Tolerance) (b : PulseBuffer) (n : Nat) (d : DecRegs) :
    DecRegs.scanRun t b (n + 1) d = DecRegs.scanRun t b n (d.scanStep t b) := by
  by_cases h : d.busy = true
  · simp [DecRegs.scanRun, h]
  · rw [Bool.not_eq_true] at h
    rw [DecRegs.scanStep_rest t b d h, DecRegs.scanRun_rest t b _ d h, DecRegs.scanRun_rest t b _ d h]

/-- A property that D.START establishes and every scanning step keeps holds after the run. -/
theorem DecRegs.scanRun_keeps {P : DecRegs → Prop} (t : Tolerance) (b : PulseBuffer)
    (hstep : ∀ d d', P d → d.busy = true → ScanCase t b d d' → P d') (n : Nat) (d : DecRegs) (h : P d) :
    P (DecRegs.scanRun t b n d) := by
  induction n generalizing d with
  | zero => exact h
  | succ n ih =>
    rw [DecRegs.scanRun_succ]
    by_cases hb : d.busy = true
    · exact ih _ (hstep d _ h hb (DecRegs.scanStep_cases t b d hb))
    · rw [Bool.not_eq_true] at hb
      rw [DecRegs.scanStep_rest t b d hb]
      exact ih d h

/-! ### The invariant -/

theorem DecInv.reset : DecInv .reset := by
  constructor <;> simp [DecRegs.reset]

theorem DecInv.start (ih : Bool) (len : Len) : DecInv (DecRegs.start ih len) := by
  cases ih <;> constructor <;> simp [DecRegs.start]

/-- Every case of a scanning step keeps the decoder's invariant (R115). -/
theorem DecInv.scanCase {t : Tolerance} {b : PulseBuffer} {d d' : DecRegs} (i : DecInv d)
    (c : ScanCase t b d d') : DecInv d' := by
  obtain ⟨-, hlow, hhigh, hcap, hhead, heven, hodd, hval, hpart, hexp, -, -, -, -, -, -⟩ := i
  have hlen := d.len.isLt
  cases c with
  | noHeader h hl =>
    simp only [h, ne_eq, reduceCtorEq, not_false_eq_true, forall_const] at hlow hhigh hhead hval hpart hexp
    constructor <;> simp [DecFailure.terminal, DecFailure.expected, *]
  | header h hl hm =>
    simp only [h, ne_eq, reduceCtorEq, not_false_eq_true, forall_const] at hlow hhigh hhead hval hpart hexp
    constructor <;> simp [*]
  | badHeader h hl hm =>
    simp only [h, ne_eq, reduceCtorEq, not_false_eq_true, forall_const] at hlow hhigh hhead hval hpart hexp
    constructor <;> simp [DecFailure.terminal, DecFailure.expected, ExpectedDuration.portValue, Config.hdrMark, *]
  | space h hl hm =>
    simp only [h, ne_eq, reduceCtorEq, not_false_eq_true, forall_const] at hlow hhigh heven hval hpart hexp
    have ho := offset_succ_toNat (o := d.offset) (by omega)
    constructor <;> simp only [ne_eq, reduceCtorEq, not_false_eq_true, forall_const, ho, false_implies, hpart, hexp]
    all_goals first | trivial | omega | skip
    rw [show (d.offset.toNat + 1 - 2) / 2 = (d.offset.toNat - 2) / 2 by omega]
    exact hval
  | badSpace h hl hm =>
    simp only [h, ne_eq, reduceCtorEq, not_false_eq_true, forall_const] at hlow hhigh heven hval hpart hexp
    constructor <;> simp [DecFailure.terminal, DecFailure.expected, ExpectedDuration.portValue, Config.space, *]
  | finish h hl =>
    simp only [h, ne_eq, reduceCtorEq, not_false_eq_true, forall_const] at hlow hhigh heven hval hpart hexp
    have hn := scanBitCount_toNat (o := d.offset) hcap
    constructor <;> simp [*]
    omega
  | noMark h hl =>
    simp only [h, ne_eq, reduceCtorEq, not_false_eq_true, forall_const] at hlow hhigh hodd hval hpart hexp
    have ho : d.offset = d.len := BitVec.eq_of_toNat_eq (by omega)
    constructor <;> simp [DecFailure.terminal, DecFailure.expected, *]
    all_goals simp_all
  | badMark h hl hc =>
    simp only [h, ne_eq, reduceCtorEq, not_false_eq_true, forall_const] at hlow hhigh hodd hval hpart hexp
    constructor <;> simp [DecFailure.terminal, DecFailure.expected, ExpectedDuration.portValue, Config.oneMark, *]
  | full h hl bit hc hf =>
    simp only [h, ne_eq, reduceCtorEq, not_false_eq_true, forall_const] at hlow hhigh hodd hval hpart hexp
    constructor <;> simp [DecFailure.terminal, DecFailure.expected, *]
    omega
  | mark h hl bit hc hf =>
    simp only [h, ne_eq, reduceCtorEq, not_false_eq_true, forall_const] at hlow hhigh hodd hval hpart hexp
    have ho := offset_succ_toNat (o := d.offset) (by omega)
    constructor <;> simp only [ne_eq, reduceCtorEq, not_false_eq_true, forall_const, ho, false_implies, hpart, hexp]
    all_goals first | trivial | omega | skip
    rw [show (d.offset.toNat + 1 - 2) / 2 = (d.offset.toNat - 2) / 2 + 1 by omega]
    exact appendBit_lt bit (by omega) hval

/-- The run of a scan keeps the decoder's invariant. -/
theorem DecInv.scanRun {d : DecRegs} (t : Tolerance) (b : PulseBuffer) (n : Nat) (i : DecInv d) :
    DecInv (DecRegs.scanRun t b n d) :=
  DecRegs.scanRun_keeps t b (fun _ _ h _ c => DecInv.scanCase h c) n d i

end Sys2Proof.Machine
end

