-- ==== Sys2Proof/Laws/Encoder.lean ====
section
/-! SUPPORT. The encoder: everything one emitting step can do, the run of an emission, and that every step keeps the encoder's
invariant. -/

namespace Sys2Proof.Machine

/-- Everything a step of an emission can do (R132 to R134), with the condition of each case. -/
inductive EmitCase (s : State) : State → Prop where
  | headerOnly (h : s.enc.state = .emitHeader) (hr : s.enc.remaining = 0) :
      EmitCase s ((s.emitSymbol .hdr).withEnc { s.enc with state := .done })
  | header (h : s.enc.state = .emitHeader) (hr : s.enc.remaining ≠ 0) :
      EmitCase s ((s.emitSymbol .hdr).withEnc { s.enc with state := .emitSpace })
  | space (h : s.enc.state = .emitSpace) : EmitCase s ((s.emitSymbol .sp).withEnc { s.enc with state := .emitMark })
  | lastMark (h : s.enc.state = .emitMark) (hr : s.enc.remaining = 1) :
      EmitCase s ((s.emitSymbol (Symbol.ofBit s.enc.nextBit)).withEnc
        { s.enc with remaining := s.enc.remaining - 1, state := .done })
  | mark (h : s.enc.state = .emitMark) (hr : s.enc.remaining ≠ 1) :
      EmitCase s ((s.emitSymbol (Symbol.ofBit s.enc.nextBit)).withEnc
        { s.enc with remaining := s.enc.remaining - 1, state := .emitSpace })

/-- The inversion lemma of an emitting step: one of the cases above holds. -/
theorem State.emitStep_cases (s : State) (h : s.enc.busy = true) : EmitCase s s.emitStep := by
  cases hs : s.enc.state <;> simp [EncRegs.busy, hs, EState.emitting] at h
  · simp only [State.emitStep, hs, State.encHeaderStep]
    split
    · exact .headerOnly hs ‹_›
    · exact .header hs ‹_›
  · simp only [State.emitStep, hs, State.encSpaceStep]
    exact .space hs
  · simp only [State.emitStep, hs, State.encMarkStep]
    split
    · exact .lastMark hs ‹_›
    · exact .mark hs ‹_›

/-- A unit at rest is not moved by an emitting step. -/
theorem State.emitStep_rest (s : State) (h : s.enc.busy = false) : s.emitStep = s := by
  cases hs : s.enc.state <;> simp [EncRegs.busy, hs, EState.emitting] at h <;> simp [State.emitStep, hs]

theorem State.emitRun_rest (n : Nat) (s : State) (h : s.enc.busy = false) : State.emitRun n s = s := by
  cases n <;> simp [State.emitRun, h]

/-- A run is a step and a run. -/
theorem State.emitRun_succ (n : Nat) (s : State) : State.emitRun (n + 1) s = State.emitRun n s.emitStep := by
  by_cases h : s.enc.busy = true
  · simp [State.emitRun, h]
  · rw [Bool.not_eq_true] at h
    rw [State.emitStep_rest s h, State.emitRun_rest _ s h, State.emitRun_rest _ s h]

/-- A property that every emitting step keeps holds after the run. -/
theorem State.emitRun_keeps {P : State → Prop} (hstep : ∀ s s', P s → s.enc.busy = true → EmitCase s s' → P s')
    (n : Nat) (s : State) (h : P s) : P (State.emitRun n s) := by
  induction n generalizing s with
  | zero => exact h
  | succ n ih =>
    rw [State.emitRun_succ]
    by_cases hb : s.enc.busy = true
    · exact ih _ (hstep s _ h hb (State.emitStep_cases s hb))
    · rw [Bool.not_eq_true] at hb
      rw [State.emitStep_rest s hb]
      exact ih s h

/-- The count of bits left steps down by one above 0 (R25). -/
theorem remaining_pred_toNat {r : BitCount} (h : 1 ≤ r.toNat) : (r - 1).toNat = r.toNat - 1 := by
  rw [BitVec.toNat_sub]
  have : (1 : BitCount).toNat = 1 := rfl
  have := r.isLt
  omega

/-- What an emitting step leaves alone: everything but the encoder's registers and the stream (R27). -/
theorem EmitCase.frame {s s' : State} (c : EmitCase s s') :
    s'.dec = s.dec ∧ s'.tol = s.tol ∧ s'.ports = s.ports ∧ s'.buf = s.buf ∧ s'.matchAnswer = s.matchAnswer ∧
      s'.script = s.script ∧ s'.enc.value = s.enc.value ∧ s'.enc.freq = s.enc.freq := by
  cases c <;> simp

/-- An emitting step appends one entry, the one its port offers (R50). -/
theorem EmitCase.txLog {s s' : State} (c : EmitCase s s') : s'.txLog = s.txLog ++ s.enc.offer.toList.map Offer.entry := by
  cases c <;> simp [EncRegs.offer, *]

theorem EncInv.reset : EncInv .reset := by
  constructor <;> simp [EncRegs.reset]

theorem EncInv.start (v : Value) (n : BitCount) (k : Khz) : EncInv (EncRegs.start v n k) := by
  by_cases h : n.toNat > 32
  · constructor <;> simp [EncRegs.start, Config.maxBits, h]
  · constructor <;> simp [EncRegs.start, Config.maxBits, h]
    omega

/-- Every case of an emitting step keeps the encoder's invariant (R25). -/
theorem EncInv.emitCase {s s' : State} (i : EncInv s.enc) (c : EmitCase s s') : EncInv s'.enc := by
  obtain ⟨-, hhead, hpair, -, -⟩ := i
  have hz : ∀ n : Nat, s.enc.remaining ≠ BitVec.ofNat 6 n → n < 64 → s.enc.remaining.toNat ≠ n := by
    intro n hn hlt he
    exact hn (BitVec.eq_of_toNat_eq (by simp [he, Nat.mod_eq_of_lt hlt]))
  cases c with
  | headerOnly h hr => constructor <;> simp [hr]
  | header h hr =>
    have := hhead h
    have := hz 0 hr (by omega)
    constructor <;> simp
    omega
  | space h =>
    have := hpair (.inl h)
    constructor <;> simp
    omega
  | lastMark h hr => constructor <;> simp [hr]
  | mark h hr =>
    have := hpair (.inr h)
    have := hz 1 hr (by omega)
    have hp := remaining_pred_toNat (r := s.enc.remaining) (by omega)
    constructor <;> simp only [State.withEnc_enc, reduceCtorEq, false_implies, true_or, forall_const, hp]
    all_goals first | trivial | omega

end Sys2Proof.Machine
end

