-- ==== Sys2Proof/Laws/Machine.lean ====
section
/-! SUPPORT. One lemma per meaning, saying when it gives a next state and which; the meanings in terms of one scanning or emitting
step; the steps of the machine and the host's actions. -/

namespace Sys2Proof.Machine

variable {s t : State}

@[simp] theorem andThen_next (s : State) (f : State → Host.Outcome State Fault Refusal) : andThen (.next s) f = f s := rfl

/-- A sequence of two gives a next state exactly when both do. -/
theorem andThen_eq_next {o : Host.Outcome State Fault Refusal} {f : State → Host.Outcome State Fault Refusal} :
    andThen o f = .next t ↔ ∃ u, o = .next u ∧ f u = .next t := by
  cases o <;> simp [andThen]

/-! ### When a meaning gives a next state -/

theorem execDStart_next : execDStart s = .next t ↔
    (s.dec.busy = false ∧ s.ports.decStart = true) ∧
      s.withDec (DecRegs.start s.ports.decIgnoreHeader s.ports.decSeqLen) = t := by
  unfold execDStart; split <;> simp_all

theorem execDHeader_next : execDHeader s = .next t ↔
    s.dec.state = .expectHeader ∧ s.withDec (s.dec.headerStep s.tol s.buf) = t := by
  unfold execDHeader; split <;> simp_all

theorem execDSpace_next : execDSpace s = .next t ↔
    (s.dec.state = .expectSpace ∧ s.dec.offset.toNat < s.dec.len.toNat) ∧ s.withDec (s.dec.spaceStep s.tol s.buf) = t := by
  unfold execDSpace; split <;> simp_all

theorem execDMark_next : execDMark s = .next t ↔
    s.dec.state = .expectMark ∧ s.withDec (s.dec.markStep s.tol s.buf) = t := by
  unfold execDMark; split <;> simp_all

theorem execDFinish_next : execDFinish s = .next t ↔
    (s.dec.state = .expectSpace ∧ s.dec.len.toNat ≤ s.dec.offset.toNat) ∧ s.withDec s.dec.finishStep = t := by
  unfold execDFinish
  split
  · simp [*]
  · simp [*]

theorem execDHold_next : execDHold s = .next t ↔ (s.dec.busy = false ∧ s.ports.decStart = false) ∧ s = t := by
  unfold execDHold; split <;> simp_all

theorem execEStart_next : execEStart s = .next t ↔
    (s.enc.busy = false ∧ s.ports.encStart = true) ∧
      s.withEnc (EncRegs.start s.ports.encValue s.ports.encBitcount s.ports.encFreqKhz) = t := by
  unfold execEStart; split <;> simp_all

theorem execEHeader_next : execEHeader s = .next t ↔ s.enc.state = .emitHeader ∧ s.encHeaderStep = t := by
  unfold execEHeader; split <;> simp_all

theorem execESpace_next : execESpace s = .next t ↔ s.enc.state = .emitSpace ∧ s.encSpaceStep = t := by
  unfold execESpace; split <;> simp_all

theorem execEMark_next : execEMark s = .next t ↔
    (s.enc.state = .emitMark ∧ s.enc.remaining ≠ 0) ∧ s.encMarkStep = t := by
  unfold execEMark
  split
  · split <;> simp_all
  · simp_all

theorem execEHold_next : execEHold s = .next t ↔ (s.enc.busy = false ∧ s.ports.encStart = false) ∧ s = t := by
  unfold execEHold; split <;> simp_all

theorem execDecode_next {ih : Bool} {len : Len} : execDecode ih len s = .next t ↔
    (if s.dec.busy then s else s.withDec (DecRegs.scanRun s.tol s.buf 67 (DecRegs.start ih len))) = t := by
  unfold execDecode; split <;> simp_all

theorem execEncode_next {v : Value} {n : BitCount} {k : Khz} : execEncode v n k s = .next t ↔
    (if s.enc.busy then s else State.emitRun 65 (s.withEnc (EncRegs.start v n k))) = t := by
  unfold execEncode; split <;> simp_all

/-! ### The selected micro-operations -/

/-- The decoder's registers after the micro-operation selected (R107). -/
def decNext (s : State) : DecRegs :=
  if s.dec.busy then s.dec.scanStep s.tol s.buf
  else if s.ports.decStart then DecRegs.start s.ports.decIgnoreHeader s.ports.decSeqLen else s.dec

/-- The decoder's selected micro-operation always gives a next state, and writes the decoder's registers only. -/
theorem exec_decOp (s : State) : exec s.decOp s = .next (s.withDec (decNext s)) := by
  cases h : s.dec.state <;> simp only [State.decOp, h, selectDec]
  case expectHeader => simp [exec, execDHeader, decNext, DecRegs.busy, DState.scanning, h, DecRegs.scanStep]
  case expectMark => simp [exec, execDMark, decNext, DecRegs.busy, DState.scanning, h, DecRegs.scanStep]
  case expectSpace =>
    split
    · simp [exec, execDSpace, decNext, DecRegs.busy, DState.scanning, DecRegs.scanStep, *]
    · have hl : s.dec.len.toNat ≤ s.dec.offset.toNat := by omega
      simp [exec, execDFinish, decNext, DecRegs.busy, DState.scanning, DecRegs.scanStep, *]
  all_goals
    cases hp : s.ports.decStart <;>
      simp [exec, execDStart, execDHold, decNext, DecRegs.busy, DState.scanning, h, hp]

/-- The state after the encoder's selected micro-operation (R135), where it has a bit to send. -/
def encNext (s : State) : State :=
  if s.enc.busy then s.emitStep
  else if s.ports.encStart then s.withEnc (EncRegs.start s.ports.encValue s.ports.encBitcount s.ports.encFreqKhz) else s

/-- The encoder's selected micro-operation gives a next state, but for E.MARK without a bit left. -/
theorem exec_encOp (s : State) : exec s.encOp s =
    if s.enc.state = .emitMark ∧ s.enc.remaining = 0 then .fault .noBitLeft else .next (encNext s) := by
  cases h : s.enc.state <;> simp only [State.encOp, h, selectEnc]
  case emitHeader => simp [exec, execEHeader, encNext, EncRegs.busy, EState.emitting, h, State.emitStep]
  case emitSpace => simp [exec, execESpace, encNext, EncRegs.busy, EState.emitting, h, State.emitStep]
  case emitMark => simp [exec, execEMark, encNext, EncRegs.busy, EState.emitting, h, State.emitStep]
  all_goals
    cases hp : s.ports.encStart <;>
      simp [exec, execEStart, execEHold, encNext, EncRegs.busy, EState.emitting, h, hp]

/-- E.MARK without a bit left is where the encoder's selected micro-operation stops (log 8). -/
theorem exec_encOp_fault (h : s.enc.state = .emitMark ∧ s.enc.remaining = 0) : exec s.encOp s = .fault .noBitLeft := by
  rw [exec_encOp]; exact if_pos h

/-- Everywhere else it gives a next state. -/
theorem exec_encOp_next (h : ¬ (s.enc.state = .emitMark ∧ s.enc.remaining = 0)) : exec s.encOp s = .next (encNext s) := by
  rw [exec_encOp]; exact if_neg h

/-- What the encoder's selected micro-operation leaves alone (R27). -/
theorem encNext_frame (s : State) :
    (encNext s).dec = s.dec ∧ (encNext s).tol = s.tol ∧ (encNext s).ports = s.ports ∧ (encNext s).buf = s.buf ∧
      (encNext s).matchAnswer = s.matchAnswer ∧ (encNext s).script = s.script := by
  unfold encNext
  split
  · obtain ⟨h1, h2, h3, h4, h5, h6, -, -⟩ := (State.emitStep_cases s ‹_›).frame
    exact ⟨h1, h2, h3, h4, h5, h6⟩
  · split <;> simp

/-! ### The invariant, operation by operation -/

theorem Inv.withDec (i : Inv s) {d : DecRegs} (h : DecInv d) : Inv (s.withDec d) := ⟨i.tol, i.buf, h, i.enc, i.stream⟩

theorem Inv.withEnc (i : Inv s) {e : EncRegs} (h : EncInv e) : Inv (s.withEnc e) := ⟨i.tol, i.buf, i.dec, h, i.stream⟩

theorem Inv.withBuf (i : Inv s) {b : PulseBuffer} (h : b.wf = true) : Inv (s.withBuf b) := ⟨i.tol, h, i.dec, i.enc, i.stream⟩

theorem Inv.withPorts (i : Inv s) (p : Inputs) : Inv (s.withPorts p) := ⟨i.tol, i.buf, i.dec, i.enc, i.stream⟩

theorem Inv.withScript (i : Inv s) (a : List HostAction) : Inv (s.withScript a) := ⟨i.tol, i.buf, i.dec, i.enc, i.stream⟩

theorem Inv.withMatchAnswer (i : Inv s) (r : Bool) : Inv (s.withMatchAnswer r) := ⟨i.tol, i.buf, i.dec, i.enc, i.stream⟩

theorem Inv.emitSymbol (i : Inv s) (x : Symbol) : Inv (s.emitSymbol x) := by
  refine ⟨i.tol, i.buf, i.dec, i.enc, fun e he => ?_⟩
  rw [State.emitSymbol_txLog, List.mem_append, List.mem_singleton] at he
  exact he.elim (i.stream e) fun h => ⟨x, h⟩

theorem Inv.emitCase (i : Inv s) (c : EmitCase s t) : Inv t := by
  have he := EncInv.emitCase i.enc c
  cases c <;> exact (i.emitSymbol _).withEnc he

theorem Inv.hardReset (i : Inv s) : Inv s.hardReset := ⟨i.tol, i.buf, DecInv.reset, EncInv.reset, by simp⟩

theorem DecInv.decNext (i : DecInv s.dec) : DecInv (decNext s) := by
  unfold Machine.decNext
  split
  · exact i.scanCase (DecRegs.scanStep_cases _ _ _ ‹_›)
  · split
    · exact DecInv.start _ _
    · exact i

theorem Inv.encNext (i : Inv s) : Inv (encNext s) := by
  unfold Machine.encNext
  split
  · exact i.emitCase (State.emitStep_cases s ‹_›)
  · split
    · exact i.withEnc (EncInv.start _ _ _)
    · exact i

end Sys2Proof.Machine
end

