-- ==== Sys2Proof/Laws/PerInstr.lean ====
section
/-! SUPPORT. What the decoder can give, instruction by instruction: whatever a word decodes to is well formed and has a word. -/

namespace Sys2Proof.Laws.DecodedIsWellFormed

/-- An instruction that the decoder gives is one the spec admits, and one the encoder has a word for. -/
def Statement (i : Instr) : Prop :=
  ∀ w : HostWord, decodeWord w = .ok i → i.WellFormed ∧ (encodeWord i).isSome = true

/-- A stream word decodes to one of the four wire symbols or to nothing (R72). -/
theorem decodeStreamEntry_ok {w : BitVec (Config.durWidth + 1)} {i : Instr} (h : decodeStreamEntry w = .ok i) :
    i = .hdr ∨ i = .sp ∨ i = .one ∨ i = .zero := by
  unfold decodeStreamEntry at h
  repeat' split at h
  all_goals simp_all

/-- The five kinds of instruction a word can stand for are well formed and have a word. -/
theorem decodeWord_ok {w : HostWord} {i : Instr} (h : decodeWord w = .ok i) :
    i.WellFormed ∧ (encodeWord i).isSome = true := by
  cases w with
  | decCommand w => cases h; exact ⟨rfl, rfl⟩
  | encCommand w => cases h; exact ⟨rfl, rfl⟩
  | streamEntry w => rcases decodeStreamEntry_ok h with rfl | rfl | rfl | rfl <;> exact ⟨rfl, rfl⟩

theorem decode (ih : Bool) (len : Len) : Statement (.decode ih len) := fun _ => decodeWord_ok
theorem encode (value : Value) (bits : BitCount) (khz : Khz) : Statement (.encode value bits khz) := fun _ => decodeWord_ok
theorem dStart : Statement .dStart := fun _ => decodeWord_ok
theorem dHeader : Statement .dHeader := fun _ => decodeWord_ok
theorem dSpace : Statement .dSpace := fun _ => decodeWord_ok
theorem dMark : Statement .dMark := fun _ => decodeWord_ok
theorem dFinish : Statement .dFinish := fun _ => decodeWord_ok
theorem dHold : Statement .dHold := fun _ => decodeWord_ok
theorem eStart : Statement .eStart := fun _ => decodeWord_ok
theorem eHeader : Statement .eHeader := fun _ => decodeWord_ok
theorem eSpace : Statement .eSpace := fun _ => decodeWord_ok
theorem eMark : Statement .eMark := fun _ => decodeWord_ok
theorem eHold : Statement .eHold := fun _ => decodeWord_ok
theorem matchDur (m nom : Dur) : Statement (.matchDur m nom) := fun _ => decodeWord_ok
theorem hdr : Statement .hdr := fun _ => decodeWord_ok
theorem sp : Statement .sp := fun _ => decodeWord_ok
theorem one : Statement .one := fun _ => decodeWord_ok
theorem zero : Statement .zero := fun _ => decodeWord_ok

end Sys2Proof.Laws.DecodedIsWellFormed
end

