-- ==== Sys2Proof/Laws/Ports.lean ====
section
/-! SUPPORT. The ports of a step: where they show nothing, what they show of the registers, and that a step appends to the stream
exactly what it offers (R50). -/

namespace Sys2Proof.Machine

variable {s t : State} {m : Moves}

/-! ### The step by the host's next action -/

theorem step_of_nil (h : s.script = []) : step s = clock .both s := by
  rw [step, h]

theorem step_of_cons {a : HostAction} {rest : List HostAction} (h : s.script = a :: rest) :
    step s = act a (s.withScript rest) := by
  rw [step, h]

/-- A step of the block with `rst` = 1 (R180). -/
theorem clock_of_rst (h : s.ports.rst = true) : clock m s = .next s.hardReset := if_pos h

/-- A word given with `rst` = 1 (R180). -/
theorem runWord_of_rst {w : HostWord} (h : s.ports.rst = true) : runWord w s = .next s.hardReset := if_pos h

/-- New contents of the buffer, where the contract of R48 holds. -/
theorem refill_of_quiet {b : PulseBuffer} (h : s.dec.busy = false ∨ s.dec.len.toNat = 0) : refill s b = .next (s.withBuf b) := by
  refine if_neg fun ⟨hb, hl⟩ => ?_
  rcases h with h | h
  · rw [h] at hb; cases hb
  · omega

/-- New contents of the buffer, where the contract of R48 is broken. -/
theorem refill_of_scan {b : PulseBuffer} (hb : s.dec.busy = true) (hl : 0 < s.dec.len.toNat) :
    refill s b = .refused .bufferContract := if_pos ⟨hb, hl⟩

/-! ### Where the ports show nothing -/

theorem DecRegs.bufAddr_rest {d : DecRegs} (h : d.busy = false) : d.bufAddr = 0 := by
  cases hs : d.state <;> simp_all [DecRegs.bufAddr, DecRegs.busy, DState.scanning]

theorem EncRegs.offer_rest {e : EncRegs} (h : e.busy = false) : e.offer = none := by
  cases hs : e.state <;> simp_all [EncRegs.offer, EncRegs.busy, EState.emitting]

theorem State.bufAddr_of_rst (h : s.ports.rst = true) : s.bufAddr m = 0 := if_pos h

theorem State.bufAddr_enc : s.bufAddr .enc = 0 := ite_self 0

theorem State.bufAddr_rest (h : s.dec.busy = false) : s.bufAddr m = 0 := by
  cases m <;> simp [State.bufAddr, DecRegs.bufAddr_rest h]

theorem State.offer_of_rst (h : s.ports.rst = true) : s.offer m = none := if_pos h

theorem State.tx_of_rst (h : s.ports.rst = true) : s.tx m = .idle := by
  rw [State.tx, State.offer_of_rst h]; rfl

theorem State.offer_dec : s.offer .dec = none := ite_self none

theorem State.tx_dec : s.tx .dec = .idle := by
  rw [State.tx, State.offer_dec]; rfl

theorem State.offer_rest (h : s.enc.busy = false) : s.offer m = none := by
  cases m <;> simp [State.offer, EncRegs.offer_rest h]

theorem State.tx_rest (h : s.enc.busy = false) : s.tx m = .idle := by
  rw [State.tx, State.offer_rest h]; rfl

/-! ### Where they show the registers -/

theorem State.bufAddr_dec (h : s.ports.rst = false) : s.bufAddr .dec = s.dec.bufAddr := by
  simp [State.bufAddr, h]

theorem State.offer_of_enc (h : s.ports.rst = false) (hm : m ≠ .dec) : s.offer m = s.enc.offer := by
  cases m <;> simp_all [State.offer]

theorem State.tx_of_enc (h : s.ports.rst = false) (hm : m ≠ .dec) : s.tx m = .ofOffer s.enc.offer := by
  rw [State.tx, State.offer_of_enc h hm]

/-! ### The stream holds what was offered (R50) -/

/-- A step of an emission appends the entry it offers. -/
theorem State.emitStep_txLog (s : State) : s.emitStep.txLog = s.txLog ++ s.enc.offer.toList.map Offer.entry := by
  cases hb : s.enc.busy
  · rw [State.emitStep_rest s hb, EncRegs.offer_rest hb]; simp
  · exact (State.emitStep_cases s hb).txLog

/-- The offers of a run are those of a step and of a run. -/
theorem State.runOffers_succ (n : Nat) (s : State) :
    State.runOffers (n + 1) s = s.enc.offer.toList ++ State.runOffers n s.emitStep := by
  cases hb : s.enc.busy
  · rw [State.emitStep_rest s hb, EncRegs.offer_rest hb]
    cases n <;> simp [State.runOffers, hb]
  · simp [State.runOffers, hb]

/-- A run of an emission appends the entries it offers, in order. -/
theorem State.emitRun_txLog (n : Nat) (s : State) :
    (State.emitRun n s).txLog = s.txLog ++ (State.runOffers n s).map Offer.entry := by
  induction n generalizing s with
  | zero => simp [State.emitRun, State.runOffers]
  | succ n ih => simp [State.emitRun_succ, State.runOffers_succ, ih, State.emitStep_txLog]

/-- What an emitting step makes of the encoder's registers depends on them alone (R27). -/
theorem State.emitStep_enc_congr {s s' : State} (h : s.enc = s'.enc) : s.emitStep.enc = s'.emitStep.enc := by
  cases hs : s'.enc.state <;>
    simp [State.emitStep, h, hs, State.encHeaderStep, State.encSpaceStep, State.encMarkStep]

/-- What a run offers depends on the encoder's registers alone. -/
theorem State.runOffers_congr (n : Nat) {s s' : State} (h : s.enc = s'.enc) : State.runOffers n s = State.runOffers n s' := by
  induction n generalizing s s' with
  | zero => rfl
  | succ n ih => rw [State.runOffers_succ, State.runOffers_succ, h, ih (State.emitStep_enc_congr h)]

/-- What an instruction offers depends on the encoder's registers alone. -/
theorem State.offersOf_congr (i : Instr) {s s' : State} (h : s.enc = s'.enc) : s.offersOf i = s'.offersOf i := by
  cases i <;> simp only [State.offersOf, h]
  rename_i v n k
  rw [State.runOffers_congr 65 (s := s.withEnc (.start v n k)) (s' := s'.withEnc (.start v n k)) rfl]

/-- The encoder's selected micro-operation appends the entry it offers, if any. -/
theorem encNext_txLog (s : State) : (encNext s).txLog = s.txLog ++ s.enc.offer.toList.map Offer.entry := by
  cases hb : s.enc.busy
  · rw [EncRegs.offer_rest hb]
    unfold encNext
    rw [if_neg (by simp [hb])]
    split <;> simp
  · simpa [encNext, hb] using State.emitStep_txLog s

/-- A step of the block without reset appends the entry it offers, if any. -/
theorem clock_txLog (hr : s.ports.rst = false) (h : clock m s = .next t) :
    t.txLog = s.txLog ++ (s.offer m).toList.map Offer.entry := by
  have henc : ∀ u : State, exec u.encOp u = .next t → t.txLog = u.txLog ++ u.enc.offer.toList.map Offer.entry := by
    intro u hu
    rw [exec_encOp] at hu
    split at hu
    · cases hu
    · cases hu; exact encNext_txLog u
  simp only [clock, hr] at h
  cases m with
  | dec =>
    simp only [exec_decOp] at h
    cases h
    simp [State.offer_dec]
  | enc => rw [State.offer_of_enc hr (by simp)]; exact henc s h
  | both =>
    simp only [exec_decOp] at h
    rw [State.offer_of_enc hr (by simp)]
    exact henc (s.withDec (decNext s)) h

/-- An instruction that gives a next state appends to the stream what it offers. -/
theorem exec_txLog {i : Instr} (h : exec i s = .next t) : t.txLog = s.txLog ++ (s.offersOf i).map Offer.entry := by
  cases i with
  | decode ih len => have := execDecode_next.1 h; subst this; split <;> simp [State.offersOf]
  | encode v n k =>
    have := execEncode_next.1 h
    subst this
    simp only [State.offersOf]
    split
    · simp
    · simp [State.emitRun_txLog]
  | dStart => obtain ⟨_, rfl⟩ := execDStart_next.1 h; simp [State.offersOf]
  | dHeader => obtain ⟨_, rfl⟩ := execDHeader_next.1 h; simp [State.offersOf]
  | dSpace => obtain ⟨_, rfl⟩ := execDSpace_next.1 h; simp [State.offersOf]
  | dMark => obtain ⟨_, rfl⟩ := execDMark_next.1 h; simp [State.offersOf]
  | dFinish => obtain ⟨_, rfl⟩ := execDFinish_next.1 h; simp [State.offersOf]
  | dHold => obtain ⟨_, rfl⟩ := execDHold_next.1 h; simp [State.offersOf]
  | eStart => obtain ⟨_, rfl⟩ := execEStart_next.1 h; simp [State.offersOf]
  | eHeader => obtain ⟨hs, rfl⟩ := execEHeader_next.1 h; simp [State.offersOf, EncRegs.offer, hs, State.encHeaderStep]
  | eSpace => obtain ⟨hs, rfl⟩ := execESpace_next.1 h; simp [State.offersOf, EncRegs.offer, hs, State.encSpaceStep]
  | eMark => obtain ⟨⟨hs, _⟩, rfl⟩ := execEMark_next.1 h; simp [State.offersOf, EncRegs.offer, hs, State.encMarkStep]
  | eHold => obtain ⟨_, rfl⟩ := execEHold_next.1 h; simp [State.offersOf]
  | matchDur m nom => cases h; simp [State.offersOf]
  | hdr => cases h; simp [State.offersOf]
  | sp => cases h; simp [State.offersOf]
  | one => cases h; simp [State.offersOf]
  | zero => cases h; simp [State.offersOf]

end Sys2Proof.Machine
end

