-- ==== Sys2Proof/Laws/Words.lean ====
section
/-! SUPPORT. The fields of the packed command words, bit by bit (R63), and the two directions between words and instructions. -/

namespace Sys2Proof

/-- The bits of a DECODE word. -/
theorem decWord_getLsbD (ih : Bool) (len : Len) (j : Nat) :
    (BitVec.cons ih len).getLsbD j = if j = Config.lenWidth then ih else len.getLsbD j := by
  rw [BitVec.getLsbD_cons]

/-- The bits of an ENCODE word. -/
theorem encWord_getLsbD (khz : Khz) (bits : BitCount) (value : Value) (j : Nat) :
    BitVec.getLsbD (w := 46) (khz ++ bits ++ value) j =
      if j < 32 then value.getLsbD j else if j - 32 < 6 then bits.getLsbD (j - 32) else khz.getLsbD (j - 32 - 6) :=
  BitVec.getLsbD_append.trans <| by
    split
    · rfl
    · exact BitVec.getLsbD_append

/-- A DECODE word gives its fields back. -/
theorem decodeWord_decode (ih : Bool) (len : Len) : decodeWord (.decCommand (BitVec.cons ih len)) = .ok (.decode ih len) := by
  have hl : (BitVec.cons ih len).extractLsb' 0 Config.lenWidth = len := by
    apply BitVec.eq_of_getLsbD_eq
    intro j hj
    rw [BitVec.getLsbD_extractLsb', Nat.zero_add, decWord_getLsbD, if_neg (Nat.ne_of_lt hj)]
    simp [hj]
  simp only [decodeWord, hl]
  rw [decWord_getLsbD, if_pos rfl]

/-- A stream word gives its kind and its duration back. -/
theorem pack_fields (e : StreamEntry) :
    e.pack.getLsbD Config.durWidth = decide (e.kind = .mark) ∧ e.pack.extractLsb' 0 Config.durWidth = e.dur := by
  refine ⟨by rw [StreamEntry.pack, BitVec.getLsbD_cons, if_pos rfl], ?_⟩
  apply BitVec.eq_of_getLsbD_eq
  intro j hj
  rw [BitVec.getLsbD_extractLsb', Nat.zero_add, StreamEntry.pack, BitVec.getLsbD_cons, if_neg (Nat.ne_of_lt hj)]
  simp [hj]

/-- A stream word is the packing of its kind and its duration. -/
theorem pack_of_fields (w : BitVec (Config.durWidth + 1)) :
    StreamEntry.pack ⟨if w.getLsbD Config.durWidth then .mark else .space, w.extractLsb' 0 Config.durWidth⟩ = w := by
  apply BitVec.eq_of_getLsbD_eq
  intro j hj
  rw [StreamEntry.pack, BitVec.getLsbD_cons]
  by_cases h : j = Config.durWidth
  · subst h
    cases hw : w.getLsbD Config.durWidth <;> simp
  · rw [if_neg h, BitVec.getLsbD_extractLsb', Nat.zero_add]
    simp [show j < Config.durWidth by omega]

/-- An ENCODE word gives its fields back. -/
theorem decodeWord_encode (value : Value) (bits : BitCount) (khz : Khz) :
    decodeWord (.encCommand (khz ++ bits ++ value)) = .ok (.encode value bits khz) := by
  have hv : BitVec.extractLsb' (n := 46) 0 32 (khz ++ bits ++ value) = value := by
    apply BitVec.eq_of_getLsbD_eq
    intro j hj
    rw [BitVec.getLsbD_extractLsb', encWord_getLsbD]
    simp [hj]
  have hb : BitVec.extractLsb' (n := 46) 32 6 (khz ++ bits ++ value) = bits := by
    apply BitVec.eq_of_getLsbD_eq
    intro j hj
    rw [BitVec.getLsbD_extractLsb', encWord_getLsbD]
    simp [hj]
  have hk : BitVec.extractLsb' (n := 46) 38 8 (khz ++ bits ++ value) = khz := by
    apply BitVec.eq_of_getLsbD_eq
    intro j hj
    rw [BitVec.getLsbD_extractLsb', encWord_getLsbD]
    simp [hj, show ¬ 38 + j < 32 by omega, show ¬ 38 + j - 32 < 6 by omega, show 38 + j - 32 - 6 = j by omega]
  simp only [decodeWord]
  rw [hv, hb, hk]

end Sys2Proof
end

