-- ==== Sys2Proof/Tests/Slice0.lean ====
section
/-! SUPPORT. The model's own tests: the check of instructions, words written out from the spec's formats, one step of each operation
against the vectors of 95_test_vectors.md, and for every statement with hypotheses a state that meets them. -/

namespace Sys2Proof.Tests

open Sys2Proof.Machine Sys2Proof.Claims

/-! ### States -/

/-- The reset state of a block with the reference tolerance 1/4, the buffer filled with a sequence. -/
def quarter (ds : List Dur) : State := { State.reset with tol := ⟨1, 4⟩, buf := PulseBuffer.ofList ds }

/-- The same block in the course of a scan or after it. -/
def scan (state : DState) (offset len : Len) (value : Value) (ds : List Dur) : State :=
  { quarter ds with dec := { DecRegs.reset with state := state, offset := offset, len := len, value := value } }

/-- The same block in the course of an emission or after it. -/
def emission (state : EState) (value : Value) (remaining : BitCount) : State :=
  { quarter [] with enc := { state := state, value := value, remaining := remaining, freq := 38 } }

/-- Both command inputs driven: DECODE with `len` = 30, ENCODE of 0x0A5C in 14 bits. -/
def asking : Inputs :=
  { rst := false, decStart := true, decIgnoreHeader := false, decSeqLen := 30,
    encStart := true, encValue := 0x0A5C, encBitcount := 14, encFreqKhz := 38 }

/-- An outcome is one given next state. -/
def runsTo : Host.Outcome State Fault Refusal → State → Bool
  | .next t, s => decide (t = s)
  | .fault _, _ => false
  | .refused _, _ => false

/-- What `runsTo` answers is that the outcome is the next state. -/
theorem runsTo_iff {o : Host.Outcome State Fault Refusal} {s : State} : runsTo o s = true ↔ o = .next s := by
  cases o <;> simp [runsTo]

/-! ### The check of instructions -/

/-- R90: 601 is no nominal duration. -/
theorem test_ill_formed_match_refused : ¬ (Instr.matchDur 600 601).WellFormed := by decide

/-- R9: the four nominal durations. -/
theorem test_well_formed_match : (Instr.matchDur 65535 2400).WellFormed ∧ (Instr.matchDur 0 600).WellFormed ∧
    (Instr.matchDur 0 1200).WellFormed := by decide

/-- R74: 33 bits are an instruction, EncodeRangeFault. -/
theorem test_well_formed_encode : (Instr.encode 1 33 38).WellFormed := by decide

/-! ### Words -/

/-- W2: `1 00001000` is `DECODE ih=1, len=8`. -/
theorem test_word_decode : decodeTableWord 16 0b1_00001000 = some (.decode true 8) := by decide

/-- W7: 38 * 2^38 + 14 * 2^32 + 0x0A5C. -/
theorem test_word_encode : decodeTableWord 48 (38 * 2 ^ 38 + 14 * 2 ^ 32 + 0x0A5C) = some (.encode 0x0A5C 14 38) := by decide

/-- W9: `MESSAGE 0xABCDEF`. -/
theorem test_word_message : decodeTableWord 48 0x099800ABCDEF = some (message 0xABCDEF) := by decide

/-- W11: 33 bits decode. -/
theorem test_word_encode_range : decodeTableWord 48 0x09A100000001 = some (.encode 1 33 38) := by decide

/-- R72: kind 1 and 2400, kind 0 and 600, kind 1 and 1200, kind 1 and 600. -/
theorem test_word_symbols :
    decodeTableWord 24 (2 ^ 16 + 2400) = some .hdr ∧ decodeTableWord 24 600 = some .sp ∧
    decodeTableWord 24 (2 ^ 16 + 1200) = some .one ∧ decodeTableWord 24 (2 ^ 16 + 600) = some .zero := by decide

/-- R72: a space of 2400 is none of the four; a tenth bit is outside a DECODE word (R63). -/
theorem test_word_refused : decodeTableWord 24 2400 = none ∧ decodeTableWord 16 0x200 = none := by decide

/-- W1, W10: the encoder writes the same words. -/
theorem test_word_encoded : encodeWord (.decode false 6) = some (.decCommand 0x006) ∧
    encodeWord (.encode 0xFFFFFFFF 32 56) = some (.encCommand 0x0E20FFFFFFFF) ∧
    encodeWord .hdr = some (.streamEntry 0x10960) := by decide

/-! ### MATCH -/

/-- M2, M3. -/
theorem test_match_edge : runsTo (exec (.matchDur 750 600) (quarter [])) { quarter [] with matchAnswer := some true } ∧
    runsTo (exec (.matchDur 751 600) (quarter [])) { quarter [] with matchAnswer := some false } := by decide

/-- M21, M22, M23, M24 at 1/7; M29, M30 at 1/3; M31. -/
theorem test_match_fractional :
    matchDuration ⟨1, 7⟩ 685 600 = true ∧ matchDuration ⟨1, 7⟩ 686 600 = false ∧ matchDuration ⟨1, 7⟩ 515 600 = true ∧
    matchDuration ⟨1, 7⟩ 514 600 = false ∧ classifyMark ⟨1, 3⟩ 800 = some true ∧ matchDuration ⟨1, 4⟩ 65535 2400 = false := by
  decide

/-! ### The decoder -/

/-- P1 step 31. -/
theorem test_dStart : runsTo (exec .dStart { quarter [] with ports := asking })
    { quarter [] with ports := asking, dec := { DecRegs.reset with state := .expectHeader, offset := 2, len := 30 } } := by
  decide

/-- P1 step 32. -/
theorem test_dHeader : runsTo (exec .dHeader (scan .expectHeader 2 4 0 [0, 2400])) (scan .expectSpace 2 4 0 [0, 2400]) := by decide

/-- P2 step 2: `MATCH(9000, 2400)` is false. -/
theorem test_dHeader_error : runsTo (exec .dHeader (scan .expectHeader 2 8 0 [0, 9000]))
    { scan .errHeaderMark 2 8 0 [0, 9000] with
      dec := { (scan .errHeaderMark 2 8 0 []).dec with rExpected := 2400 } } := by decide

/-- V19: 700 is a space. -/
theorem test_dSpace : runsTo (exec .dSpace (scan .expectSpace 2 3 0 [0, 2400, 700])) (scan .expectMark 3 3 0 [0, 2400, 700]) := by
  decide

/-- V5: 100 is not. -/
theorem test_dSpace_error : runsTo (exec .dSpace (scan .expectSpace 2 3 0 [0, 2400, 100]))
    { scan .errDataSpace 2 3 0 [0, 2400, 100] with
      dec := { (scan .errDataSpace 2 3 0 []).dec with rExpected := 600 } } := by decide

/-- V9, V12: at 1/4, 900 is a ONE and 751 is no symbol. -/
theorem test_dMark : runsTo (exec .dMark (scan .expectMark 3 4 0 [0, 0, 600, 900])) (scan .expectSpace 4 4 1 [0, 0, 600, 900]) ∧
    runsTo (exec .dMark (scan .expectMark 3 4 0 [0, 0, 600, 751])) { scan .errDataMark 3 4 0 [0, 0, 600, 751] with
      dec := { (scan .errDataMark 3 4 0 []).dec with rExpected := 1200 } } := by decide

/-- V22, V23: the 33rd bit at offset 67, and the half pair there. -/
theorem test_dMark_faults :
    runsTo (exec .dMark { scan .expectMark 67 68 0xFFFFFFFF [] with buf := [(67, 1200)] })
      { scan .faultCapacity 67 68 0xFFFFFFFF [] with buf := [(67, 1200)] } ∧
    runsTo (exec .dMark (scan .expectMark 67 67 0xFFFFFFFF [])) (scan .faultBounds 67 67 0xFFFFFFFF []) := by decide

/-- P1 step 61. -/
theorem test_dFinish : runsTo (exec .dFinish (scan .expectSpace 30 30 2652 []))
    { quarter [] with dec := { (scan .success 30 30 2652 []).dec with rValue := 0x0A5C, rBitcount := 14 } } := by decide

/-- P2, the hold after the first DECODE. -/
theorem test_dHold : runsTo (exec .dHold (scan .errHeaderMark 2 8 0 [])) (scan .errHeaderMark 2 8 0 []) ∧
    (scan .errHeaderMark 2 8 0 []).dec.outputs.status = 2 := by decide

/-- V1, the source's scenario S1. -/
theorem test_decode : runsTo (exec (.decode false 6) (quarter [7, 2400, 600, 1200, 600, 600]))
    { quarter [7, 2400, 600, 1200, 600, 600] with
      dec := { state := .success, offset := 6, value := 2, ih := false, len := 6, rValue := 2, rBitcount := 2, rExpected := 0 } } := by
  decide

/-- V4: DataSpaceError at offset 4, working value 1. -/
theorem test_decode_error : runsTo (exec (.decode false 6) (quarter [7, 2400, 600, 1200, 800, 600]))
    { quarter [7, 2400, 600, 1200, 800, 600] with
      dec := { state := .errDataSpace, offset := 4, value := 1, ih := false, len := 6, rValue := 0, rBitcount := 0, rExpected := 600 } } := by
  decide

/-! ### The encoder -/

/-- P1 step 1. -/
theorem test_eStart : runsTo (exec .eStart { quarter [] with ports := asking })
    { emission .emitHeader 0x0A5C 14 with ports := asking } := by decide

/-- X2: with no bits the header mark is the whole frame. -/
theorem test_eHeader : runsTo (exec .eHeader (emission .emitHeader 0 0)) { emission .done 0 0 with txLog := [⟨.mark, 2400⟩] } ∧
    runsTo (exec .eHeader (emission .emitHeader 2 2)) { emission .emitSpace 2 2 with txLog := [⟨.mark, 2400⟩] } := by decide

/-- P4 step 3. -/
theorem test_eSpace : runsTo (exec .eSpace (emission .emitSpace 2 2)) { emission .emitMark 2 2 with txLog := [⟨.space, 600⟩] } := by decide

/-- P4 steps 4 and 6: bit 1 of 2 is 1, bit 0 is 0 and the last. -/
theorem test_eMark : runsTo (exec .eMark (emission .emitMark 2 2)) { emission .emitSpace 2 1 with txLog := [⟨.mark, 1200⟩] } ∧
    runsTo (exec .eMark (emission .emitMark 2 1)) { emission .done 2 0 with txLog := [⟨.mark, 600⟩] } ∧
    (emission .emitMark 2 1).tx .enc = { valid := true, kind := 1, dur := 600, last := true } := by decide

/-- P4 step 7. -/
theorem test_eHold : runsTo (exec .eHold (emission .done 2 0)) (emission .done 2 0) := by decide

/-- X1. -/
theorem test_encode : runsTo (exec (.encode 2 2 38) (quarter [])) { emission .done 2 0 with
    txLog := [⟨.mark, 2400⟩, ⟨.space, 600⟩, ⟨.mark, 1200⟩, ⟨.space, 600⟩, ⟨.mark, 600⟩] } := by decide

/-- X4: nothing is emitted, the refused request stands in the registers. -/
theorem test_encode_range : runsTo (exec (.encode 1 33 38) (quarter [])) (emission .faultRange 1 33) ∧
    (emission .faultRange 1 33).enc.outputs.status = 2 := by decide

/-- R72, the table of the four entries. -/
theorem test_symbols : runsTo (exec .hdr (quarter [])) { quarter [] with txLog := [⟨.mark, 2400⟩] } ∧
    runsTo (exec .sp (quarter [])) { quarter [] with txLog := [⟨.space, 600⟩] } ∧
    runsTo (exec .one (quarter [])) { quarter [] with txLog := [⟨.mark, 1200⟩] } ∧
    runsTo (exec .zero (quarter [])) { quarter [] with txLog := [⟨.mark, 600⟩] } := by decide

/-! ### The step of the machine -/

/-- A DECODE word and an ENCODE word run as the first step after reset, at whatever tolerance the block has: `len` = 0 ends in
BoundsFault (V15), `bits` = 33 in EncodeRangeFault (X4). -/
theorem test_first_step :
    step (State.reset.withFetchWord 16 0) = .next { State.reset with dec := { DecRegs.start false 0 with state := .faultBounds } } ∧
    step (State.reset.withFetchWord 48 0x09A100000001) = .next { State.reset with enc := EncRegs.start 1 33 38 } ∧
    step (State.reset.withFetchWord 24 0x10960) = .next { State.reset with txLog := [⟨.mark, 2400⟩] } := by
  exact ⟨rfl, rfl, rfl⟩

/-- P4 step 1: with nothing to do for the host both units move, each by its start input. -/
theorem test_step_both : runsTo (step { quarter [] with ports := asking }) { quarter [] with
    ports := asking, dec := DecRegs.start false 30, enc := EncRegs.start 0x0A5C 14 38 } := by decide

/-- P4: the encoder alone moves. -/
theorem test_step_enc : runsTo (step { quarter [] with script := [.drive asking .enc] }) { quarter [] with
    ports := asking, enc := EncRegs.start 0x0A5C 14 38 } := by decide

/-- P1: CAPTURE of the frame of X1 is the buffer of V1. -/
theorem test_capture : runsTo (act (.capture 7) { emission .done 2 0 with
      txLog := [⟨.mark, 2400⟩, ⟨.mark, 2400⟩, ⟨.space, 600⟩, ⟨.mark, 1200⟩, ⟨.space, 600⟩, ⟨.mark, 600⟩] })
    { emission .done 2 0 with
      txLog := [⟨.mark, 2400⟩, ⟨.mark, 2400⟩, ⟨.space, 600⟩, ⟨.mark, 1200⟩, ⟨.space, 600⟩, ⟨.mark, 600⟩]
      buf := PulseBuffer.ofList [7, 2400, 600, 1200, 600, 600] } := by decide

/-! ### Hypotheses met: for each statement of Obligations.lean that has hypotheses, values that meet them, clause by clause at the
edges of their ranges -/

/-- StepRunsTheDecodedWord. -/
theorem test_witness_decoded_word :
    let s := { quarter [] with script := [.word (.decCommand 0x108)] }
    s.script = .word (.decCommand 0x108) :: [] ∧ s.ports.rst = false ∧ decodeWord (.decCommand 0x108) = .ok (.decode true 8) :=
  ⟨rfl, rfl, rfl⟩

/-- FetchedWordRunsNext. -/
theorem test_witness_fetched_word : decodeTableWord 16 0x108 = some (.decode true 8) ∧
    decodeTableWord 48 0x0E20FFFFFFFF = some (.encode 0xFFFFFFFF 32 56) ∧ decodeTableWord 24 0x258 = some .sp := by decide

/-- StepRunsTheSelectedOperations: nothing to do, and each choice of units. -/
theorem test_witness_selected :
    (quarter []).script = [] ∧ (quarter []).ports.rst = false ∧ asking.rst = false ∧
    ∀ m : Moves, { quarter [] with script := [.drive asking m] }.script = .drive asking m :: [] :=
  ⟨rfl, rfl, rfl, fun _ => rfl⟩

/-- DecoderStepTable: its six rows; D.SPACE one entry before the end, D.FINISH at the end. -/
theorem test_witness_decoder_table :
    (DecRests { scan .success 4 4 0 [] with ports := asking } ∧ asking.decStart = true) ∧
    (DecRests (quarter []) ∧ (quarter []).ports.decStart = false) ∧
    (scan .expectHeader 2 2 0 []).dec.state = .expectHeader ∧
    ((scan .expectSpace 2 3 0 []).dec.state = .expectSpace ∧ (2 : Len).toNat < (3 : Len).toNat) ∧
    ((scan .expectSpace 4 4 0 []).dec.state = .expectSpace ∧ (4 : Len).toNat ≤ (4 : Len).toNat) ∧
    (scan .expectMark 3 4 0 []).dec.state = .expectMark := by
  unfold DecRests; decide

/-- EncoderStepTable: its five rows, each with the premise on E.MARK. -/
theorem test_witness_encoder_table :
    (EncRests { emission .done 0 0 with ports := asking } ∧ asking.encStart = true) ∧
    (EncRests (quarter []) ∧ (quarter []).ports.encStart = false) ∧
    (emission .emitHeader 0 0).enc.state = .emitHeader ∧ (emission .emitSpace 0 1).enc.state = .emitSpace ∧
    ((emission .emitMark 0 1).enc.state = .emitMark ∧ 1 ≤ (emission .emitMark 0 1).enc.remaining.toNat) := by
  unfold EncRests; decide

/-- OnlyTheSelectedOperationRuns. -/
theorem test_witness_only_selected :
    (.dStart ∈ decMicroOps ∧ Instr.dStart ≠ (quarter []).decOp) ∧ (.eMark ∈ encMicroOps ∧ Instr.eMark ≠ (quarter []).encOp) ∧
    ((emission .emitMark 0 0).enc.state = .emitMark ∧ (emission .emitMark 0 0).enc.remaining.toNat = 0) := by decide

/-- MatchIsAClosedWindow, MarkClassification: tolerances of the range, the least and one near 1; an edge that is a whole number, and
an upper edge just beyond the widest duration. -/
theorem test_witness_valid : Tolerance.Valid ⟨0, 1⟩ ∧ Tolerance.Valid ⟨1, 4⟩ ∧ Tolerance.Valid ⟨99, 100⟩ ∧
    (1200 : Dur).toNat * 1 = 4 * 300 ∧ 2 ^ Config.durWidth - 1 < windowHi ⟨1, 4⟩ (52429 : Dur).toNat := by decide

/-- MarkClassification: the overlap at 1/3 and its absence just below, M29, M30. -/
theorem test_witness_overlap : (Within ⟨1, 3⟩ 800 1200 ∧ Within ⟨1, 3⟩ 800 600 ∧ 3 ≤ 3 * 1) ∧
    ¬ Within ⟨33, 100⟩ 800 1200 ∧ ¬ 100 ≤ 3 * 33 := by
  unfold Within; decide

/-- WholeEdgesMatchAndOneBeyondDoesNot: 1/4 of 600 is 150; 750, 450, 751, 449 (M2 to M5). -/
theorem test_witness_whole_edge : Tolerance.Valid ⟨1, 4⟩ ∧ (600 : Dur).toNat * 1 = 4 * 150 ∧
    (750 : Dur).toNat = (600 : Dur).toNat + 150 ∧ (450 : Dur).toNat + 150 = (600 : Dur).toNat ∧
    (751 : Dur).toNat = (600 : Dur).toNat + 150 + 1 ∧ (449 : Dur).toNat + 150 + 1 = (600 : Dur).toNat := by decide

/-- ToleranceConsequences: each row's bound at its edge. -/
theorem test_witness_tolerances :
    (Tolerance.Valid ⟨49, 100⟩ ∧ 2 * 49 < 100) ∧ (Tolerance.Valid ⟨1, 2⟩ ∧ 2 ≤ 2 * 1) ∧ (Tolerance.Valid ⟨33, 100⟩ ∧ 3 * 33 < 100) ∧
    (Tolerance.Valid ⟨24, 100⟩ ∧ 4 * 24 < 100) ∧ (Tolerance.Valid ⟨1, 4⟩ ∧ 4 * 1 = 4) ∧ Tolerance.Valid ⟨0, 1⟩ := by decide

/-- DStartOverwritesTheDecoder, DHoldChangesNothing: reset and a terminal state. -/
theorem test_witness_dec_rests :
    (DecRests { quarter [] with ports := asking } ∧ DecRests { scan .faultCapacity 67 68 1 [] with ports := asking } ∧
      asking.decStart = true) ∧
    (DecRests (scan .errDataMark 3 4 0 []) ∧ (scan .errDataMark 3 4 0 []).ports.decStart = false) := by
  unfold DecRests; decide

/-- DHeaderChecksTheHeader: one entry; two entries with the lower edge of the header (M13), and one unit below (M14). -/
theorem test_witness_dHeader :
    ((scan .expectHeader 2 1 0 [7]).dec.state = .expectHeader ∧ (1 : Len).toNat < 2) ∧
    (2 ≤ (2 : Len).toNat ∧ Within ⟨1, 4⟩ ((scan .expectHeader 2 2 0 [7, 1800]).buf.read 1).toNat 2400) ∧
    (2 ≤ (2 : Len).toNat ∧ ¬ Within ⟨1, 4⟩ ((scan .expectHeader 2 2 0 [7, 1799]).buf.read 1).toNat 2400) := by
  unfold Within; decide

/-- DSpaceChecksTheSpace: the last entry, on the upper edge and beyond it (M2, M3). -/
theorem test_witness_dSpace :
    ((scan .expectSpace 2 3 0 []).dec.state = .expectSpace ∧ (2 : Len).toNat < (3 : Len).toNat) ∧
    Within ⟨1, 4⟩ ((scan .expectSpace 2 3 0 [7, 2400, 750]).buf.read 2).toNat 600 ∧
    ¬ Within ⟨1, 4⟩ ((scan .expectSpace 2 3 0 [7, 2400, 751]).buf.read 2).toNat 600 := by
  unfold Within; decide

/-- DMarkClassifiesAndAppends: the end of the sequence; no symbol; the 33rd bit; a ONE at the 32nd; a ZERO at the first. -/
theorem test_witness_dMark :
    ((scan .expectMark 3 3 0 []).dec.state = .expectMark ∧ (3 : Len).toNat ≤ (3 : Len).toNat) ∧
    ((3 : Len).toNat < (4 : Len).toNat ∧ ¬ Within ⟨1, 4⟩ 751 1200 ∧ ¬ Within ⟨1, 4⟩ 751 600) ∧
    ((67 : Len).toNat < (68 : Len).toNat ∧ Within ⟨1, 4⟩ 1200 1200 ∧ ((67 : Len).toNat - 3) / 2 = 32) ∧
    ((65 : Len).toNat < (66 : Len).toNat ∧ Within ⟨1, 4⟩ 900 1200 ∧ ((65 : Len).toNat - 3) / 2 ≠ 32) ∧
    ((3 : Len).toNat < (4 : Len).toNat ∧ ¬ Within ⟨1, 4⟩ 750 1200 ∧ Within ⟨1, 4⟩ 750 600 ∧ ((3 : Len).toNat - 3) / 2 ≠ 32) := by
  unfold Within; decide

/-- DMarkClassifiesAndAppends: the entries just named are read at those offsets. -/
theorem test_witness_dMark_read :
    ((scan .expectMark 3 4 0 [7, 2400, 600, 751]).buf.read 3).toNat = 751 ∧
    ((scan .expectMark 3 4 0 [7, 2400, 600, 750]).buf.read 3).toNat = 750 ∧
    ({ scan .expectMark 67 68 0 [] with buf := [(67, 1200)] }.buf.read 67).toNat = 1200 ∧
    ({ scan .expectMark 65 66 0 [] with buf := [(65, 900)] }.buf.read 65).toNat = 900 := by decide

/-- DFinishBuildsThePacket: the sequence just consumed, and the shortest one. -/
theorem test_witness_dFinish :
    ((scan .expectSpace 66 66 0 []).dec.state = .expectSpace ∧ (66 : Len).toNat ≤ (66 : Len).toNat) ∧
    ((scan .expectSpace 2 0 0 []).dec.state = .expectSpace ∧ (0 : Len).toNat ≤ (2 : Len).toNat) := by decide

/-- RaiseWritesStateAndExpectedOnly: a step of each of the three operations that ends in a failure. -/
theorem test_witness_raise :
    (runsTo (exec .dHeader (scan .expectHeader 2 1 0 [])) (scan .faultBounds 2 1 0 []) ∧
      (scan .faultBounds 2 1 0 []).dec.outputs.done = true) ∧
    (runsTo (exec .dSpace (scan .expectSpace 2 3 0 [7, 2400, 100]))
        { scan .errDataSpace 2 3 0 [7, 2400, 100] with dec := (scan .expectSpace 2 3 0 []).dec.raise .dataSpaceError } ∧
      ((scan .expectSpace 2 3 0 []).dec.raise .dataSpaceError).outputs.done = true) ∧
    (runsTo (exec .dMark (scan .expectMark 3 3 0 [])) (scan .faultBounds 3 3 0 []) ∧
      (scan .faultBounds 3 3 0 []).dec.outputs.done = true) := by decide

/-- DecoderReadsAtBufAddrOnly: two buffers that agree at `buf_addr` = 1 and nowhere else. -/
theorem test_witness_bufAddr :
    DecInv { quarter [7, 2400] with dec := DecRegs.start false 2 }.dec ∧ State.bufAddr { quarter [7, 2400] with dec := DecRegs.start false 2 } .dec = 1 ∧
    PulseBuffer.read (PulseBuffer.ofList [8, 2400]) 1 = (quarter [7, 2400]).buf.read 1 :=
  ⟨DecInv.start false 2, rfl, rfl⟩

/-- BusyDecoderShowsNoResult: a scan just begun. -/
theorem test_witness_busy_decoder : DecInv (DecRegs.start true 255) ∧ (DecRegs.start true 255).outputs.busy = true :=
  ⟨DecInv.start true 255, rfl⟩

/-- EStartOverwritesTheEncoder, EHoldChangesNothing: 32 bits and 33. -/
theorem test_witness_enc_rests :
    (EncRests { quarter [] with ports := { asking with encBitcount := 32 } } ∧ ({ asking with encBitcount := 32 } : Inputs).encStart = true ∧
      ({ asking with encBitcount := 32 } : Inputs).encBitcount.toNat ≤ 32) ∧
    (EncRests { emission .faultRange 1 33 with ports := { asking with encBitcount := 33 } } ∧
      32 < ({ asking with encBitcount := 33 } : Inputs).encBitcount.toNat) ∧
    (EncRests (emission .done 0 0) ∧ (emission .done 0 0).ports.encStart = false) := by
  unfold EncRests; decide

/-- EHeaderEmitsTheHeaderMark, ESpaceEmitsTheSpace, EMarkEmitsTheNextBit. -/
theorem test_witness_emission :
    (emission .emitHeader 0 0).enc.state = .emitHeader ∧ (emission .emitSpace 0 32).enc.state = .emitSpace ∧
    ((emission .emitMark 0x80000000 32).enc.state = .emitMark ∧ 1 ≤ (32 : BitCount).toNat) ∧
    ((emission .emitMark 1 1).enc.state = .emitMark ∧ 1 ≤ (1 : BitCount).toNat) := by decide

/-- ESpaceEmitsTheSpace: the invariant of its last clause, with the last bit still to send. -/
theorem test_witness_eSpace_inv : EncInv (emission .emitSpace 0 1).enc := by
  constructor <;> decide

/-- StreamGrowsByTheOfferedEntry: a step that offers the last entry, the same with the encoder left out, one that offers none, and a
reset step. -/
theorem test_witness_stream :
    (runsTo (clock .enc (emission .emitMark 1 1)) { emission .done 1 0 with txLog := [⟨.mark, 1200⟩] } ∧
      (emission .emitMark 1 1).tx .enc = { valid := true, kind := 1, dur := 1200, last := true }) ∧
    (runsTo (clock .dec (emission .emitMark 1 1)) (emission .emitMark 1 1) ∧ (emission .emitMark 1 1).tx .dec = .idle) ∧
    (runsTo (clock .both (quarter [])) (quarter []) ∧ ((quarter []).tx .both).valid = false) ∧
    (runsTo (clock .enc { emission .emitMark 1 1 with ports := { asking with rst := true } })
        { quarter [] with ports := { asking with rst := true } } ∧
      ({ emission .emitMark 1 1 with ports := { asking with rst := true } } : State).tx .enc = .idle) := by decide

/-- StreamHoldsWhatWasOffered: the step of an ENCODE word (X2), of a stream word, and of an ENCODE word under reset. -/
theorem test_witness_offers :
    (runsTo (step { quarter [] with script := [.word (.encCommand 0x098000000000)] })
        { emission .done 0 0 with txLog := [⟨.mark, 2400⟩] } ∧
      ({ quarter [] with script := [.word (.encCommand 0x098000000000)] } : State).offers = [⟨⟨.mark, 2400⟩, true⟩]) ∧
    (runsTo (step { quarter [] with script := [.word (.streamEntry 0x258)] }) { quarter [] with txLog := [⟨.space, 600⟩] } ∧
      ({ quarter [] with script := [.word (.streamEntry 0x258)] } : State).offers = [⟨⟨.space, 600⟩, false⟩]) ∧
    ({ quarter [] with ports := { asking with rst := true }, script := [.word (.encCommand 0)] } : State).resets = true ∧
    ({ quarter [] with script := [.word (.encCommand 0)] } : State).resets = false := by decide

/-- CommandToABusyUnitIsIgnored, the last clause of DHoldChangesNothing, the first of EncoderStepTable, and both premises of
BusyUnitsIgnoreTheirCommandInputs. -/
theorem test_witness_busy : (scan .expectMark 3 4 0 []).dec.outputs.busy = true ∧ (emission .emitHeader 0 0).enc.outputs.busy = true ∧
    (scan .expectMark 3 4 0 []).ports.rst = false ∧ ({ Inputs.quiet with decStart := true, decSeqLen := 9 } : Inputs).rst = false ∧
    ({ Inputs.quiet with encStart := true, encBitcount := 9 } : Inputs).rst = false := by decide

/-- The statements about a command given to units at rest: after reset, and after an operation. CommandsAreTheirStepSequences,
DecodeComputesTheFunction, FailedDecodeShowsNoPartialValue, CommandsForgetEarlierOnes. -/
theorem test_witness_rest : (quarter []).dec.outputs.busy = false ∧ (quarter []).enc.outputs.busy = false ∧
    (quarter []).ports.rst = false ∧ (quarter []).ports.decStart = false ∧ (quarter []).ports.encStart = false ∧
    (scan .errDataMark 3 4 0 []).dec.outputs.busy = false ∧ (scan .errDataMark 3 4 0 []).buf = (quarter []).buf ∧
    (scan .errDataMark 3 4 0 []).tol = (quarter []).tol ∧ (emission .faultRange 1 33).enc.outputs.busy = false := by decide

/-- EncodeEmitsTheFrame, EncodeRangeFaultEmitsNothing: 0, 32, 33 and 63 bits. -/
theorem test_witness_bits : (0 : BitCount).toNat ≤ 32 ∧ (32 : BitCount).toNat ≤ 32 ∧ 32 < (33 : BitCount).toNat ∧ 32 < (63 : BitCount).toNat := by
  decide

/-- DecodeEndsWithinTheBound: the empty sequence and the longest. -/
theorem test_witness_bound :
    let s := fun len => { quarter [] with dec := DecRegs.start false len }
    (s 0).ports.rst = false ∧ (s 0).ports.decStart = false ∧ min 67 (1 + ((0 : Len).toNat - 2) + 1) ≤ 2 ∧
    min 67 (1 + ((255 : Len).toNat - 2) + 1) ≤ 67 := by decide

/-- DegenerateLengths: the lengths 1, 2 and 3, with a header mark and without, with a space and without. -/
theorem test_witness_degenerate : (1 : Len).toNat < 2 ∧ (2 : Len).toNat ≤ 2 ∧ (3 : Len).toNat = 3 ∧
    Within ⟨1, 4⟩ ((quarter [7, 3000, 750]).buf.read 1).toNat 2400 ∧ ¬ Within ⟨1, 4⟩ ((quarter [7, 3001]).buf.read 1).toNat 2400 ∧
    Within ⟨1, 4⟩ ((quarter [7, 3000, 750]).buf.read 2).toNat 600 ∧
    ¬ Within ⟨1, 4⟩ ((quarter [7, 3000, 751]).buf.read 2).toNat 600 := by
  unfold Within; decide

/-- DecodeIgnoresTheOtherEntries: V30, two buffers that differ at index 0; and at index 1 with the header skipped. -/
theorem test_witness_other_entries :
    (∀ i < (4 : Len).toNat, (i = 1 ∧ false = false) ∨ 2 ≤ i →
      PulseBuffer.read (PulseBuffer.ofList [65535, 2400, 600, 1200]) i = (quarter [0, 2400, 600, 1200]).buf.read i) ∧
    (∀ i < (4 : Len).toNat, (i = 1 ∧ true = false) ∨ 2 ≤ i →
      PulseBuffer.read (PulseBuffer.ofList [0, 1000, 600, 1200]) i = (quarter [0, 2400, 600, 1200]).buf.read i) := by decide

/-- EncodeTakesExactlyItsSteps. -/
theorem test_witness_enc_steps :
    { quarter [] with enc := EncRegs.start 2 2 38 }.enc = EncRegs.start 2 2 38 ∧ (quarter []).ports.rst = false ∧
    (quarter []).ports.encStart = false ∧ (2 : BitCount).toNat ≤ 32 ∧ 4 ≤ 2 * (2 : BitCount).toNat ∧ 32 < (33 : BitCount).toNat := by
  decide

/-- DecodeOfEncodeIsTheRequest, LoopBackReturnsTheRequest: the buffer of V1 is a gap and the frame of X1, at 1/4 < 1/2. -/
theorem test_witness_round_trip :
    (quarter [7, 2400, 600, 1200, 600, 600]).buf.sequence (2 * 2 + 2) = 7 :: (encodeFunction 2 2).map StreamEntry.dur ∧
    2 * (quarter []).tol.num < (quarter []).tol.den ∧ (quarter [7, 2400, 600, 1200, 600, 600]).dec.outputs.busy = false := by decide

/-- InterleavingsAgree: P4, the units together and one after the other. -/
theorem test_witness_interleavings :
    decSteps (List.replicate 6 .both) = decSteps (List.replicate 6 .enc ++ List.replicate 6 .dec) ∧
    encSteps (List.replicate 6 .both) = encSteps (List.replicate 6 .enc ++ List.replicate 6 .dec) := by decide

/-- EveryStepKeepsTheInvariant, StepStopsForTheHostOnly: the state in the course of a scan and of an emission meets the invariant, and
steps. -/
theorem test_witness_invariant :
    Inv { quarter [7, 2400] with dec := DecRegs.start false 2, enc := EncRegs.start 2 2 38 } ∧
    runsTo (step { quarter [7, 2400] with dec := DecRegs.start false 2, enc := EncRegs.start 2 2 38 })
      { quarter [7, 2400] with
        dec := { DecRegs.start false 2 with state := .expectSpace }
        enc := { EncRegs.start 2 2 38 with state := .emitSpace }
        txLog := [⟨.mark, 2400⟩] } :=
  ⟨⟨by decide, rfl, DecInv.start _ _, EncInv.start _ _ _, by simp [quarter, State.reset]⟩, by decide⟩

/-- StepStopsForTheHostOnly: its two stops are reached. -/
theorem test_witness_stops :
    step { quarter [] with script := [.word (.streamEntry 2400)] } = .refused .undecodableWord ∧
    step { scan .expectMark 3 4 0 [] with script := [.store 3 0] } = .refused .bufferContract ∧
    step { scan .expectMark 3 4 0 [] with script := [.capture 0] } = .refused .bufferContract :=
  ⟨rfl, rfl, rfl⟩

/-- DecoderOperationsFrame, DecoderAccessTable, EncoderOperationsFrame: the tests of each operation above are their witnesses; here one
of each shape. -/
theorem test_witness_frames :
    (.dMark ∈ decMicroOps ∧
      runsTo (exec .dMark (scan .expectMark 3 4 0 [0, 0, 600, 900])) (scan .expectSpace 4 4 1 [0, 0, 600, 900])) ∧
    (.eSpace ∈ encMicroOps ∧ runsTo (exec .eSpace (emission .emitSpace 2 2)) { emission .emitMark 2 2 with txLog := [⟨.space, 600⟩] }) ∧
    (.one ∈ wireSymbols ∧ runsTo (exec .one (quarter [])) { quarter [] with txLog := [⟨.mark, 1200⟩] }) := by decide

/-- ResetStepDoesNothingElse: reset asked for in the course of a scan and of an emission. -/
theorem test_witness_reset :
    ({ asking with rst := true } : Inputs).rst = true ∧
    runsTo (step { scan .expectMark 3 4 1 [7] with
        enc := EncRegs.start 2 2 38, txLog := [⟨.mark, 2400⟩], script := [.drive { asking with rst := true } .dec] })
      { quarter [7] with ports := { asking with rst := true } } ∧
    runsTo (step { scan .expectMark 3 4 1 [7] with ports := { asking with rst := true } })
      { quarter [7] with ports := { asking with rst := true } } ∧
    runsTo (step { emission .emitMark 1 1 with
        ports := { asking with rst := true }, script := [.word (.decCommand 6), .word (.streamEntry 0x258)] })
      { quarter [] with ports := { asking with rst := true }, script := [.word (.streamEntry 0x258)] } := by decide

/-- HostStoreWritesOneEntry: a store at rest, one at `d_len` during a scan, one below it. -/
theorem test_witness_store :
    ((quarter [7]).buf.wf = true ∧
      runsTo (step { quarter [7] with script := [.store 0 9] }) { quarter [] with buf := [(0, 9)] }) ∧
    runsTo (step { scan .expectMark 3 4 0 [7] with script := [.store 4 9] })
      { scan .expectMark 3 4 0 [] with buf := [(0, 7), (4, 9)] } ∧
    ((scan .expectMark 3 4 0 [7]).dec.outputs.busy = true ∧ (3 : Len).toNat < (scan .expectMark 3 4 0 [7]).dec.len.toNat) := by decide

/-- BufLineFillsTheBuffer, CaptureTakesTheLastFrame: at rest, in a scan of no entry, in a scan of one; two frames on the stream. -/
theorem test_witness_buf :
    runsTo (step { quarter [7, 8] with script := [.buf [9]] }) (quarter [9]) ∧
    runsTo (step { scan .expectSpace 2 0 0 [7] with script := [.buf [9]] }) (scan .expectSpace 2 0 0 [9]) ∧
    ((scan .expectSpace 2 1 0 [7]).dec.outputs.busy = true ∧ 0 < (scan .expectSpace 2 1 0 [7]).dec.len.toNat) ∧
    runsTo (step { quarter [7, 8] with script := [.capture 3], txLog := encodeFunction 5 3 ++ encodeFunction 1 1 })
      { quarter [3, 2400, 600, 1200] with txLog := encodeFunction 5 3 ++ encodeFunction 1 1 } := by decide

/-- Log 4: a CAPTURE of a stream without a header mark takes the whole stream; of an empty one the gap alone. -/
theorem test_capture_without_header :
    lastFrame [⟨.space, 600⟩, ⟨.mark, 600⟩] = [⟨.space, 600⟩, ⟨.mark, 600⟩] ∧ lastFrame [] = [] := by decide

end Sys2Proof.Tests
end

section
/-! PROOFS. The registers and the output ports after reset (R28). -/

namespace Sys2Proof.Machine

/-- R17 and R28: nothing is scanned and nothing has ended, so every port of the decoder reads 0. -/
@[simp] theorem DecRegs.reset_outputs : DecRegs.reset.outputs =
    { busy := false, done := false, status := 0, value := 0, bitcount := 0, tag := 0, expected := 0, offset := 0 } := rfl

/-- R22 and R28: nothing is emitted and nothing has ended, so every port of the encoder but `tx_once` reads 0. -/
@[simp] theorem EncRegs.reset_outputs : EncRegs.reset.outputs =
    { busy := false, done := false, status := 0, txFreqKhz := 0, txOnce := true } := rfl

@[simp] theorem DecRegs.reset_busy : DecRegs.reset.busy = false := rfl

@[simp] theorem EncRegs.reset_busy : EncRegs.reset.busy = false := rfl

/-- Settles O55: the registers are those of R28's table as they stand; the ports of a step show nothing, whichever units move, because
both units are at rest. -/
theorem resetValues : Obligations.ResetValues := by
  unfold Obligations.ResetValues
  refine ⟨rfl, rfl, rfl, DecRegs.reset_outputs, EncRegs.reset_outputs, fun m => ⟨?_, ?_⟩⟩
  · exact State.bufAddr_rest DecRegs.reset_busy
  · exact State.tx_rest EncRegs.reset_busy

end Sys2Proof.Machine
end

section
/-! PROOFS. The status codes of the sequencing states (R69, R70). -/

namespace Sys2Proof

/-- R69: of the eight words of `dec_status` the table gives out seven, 0 to 6. -/
theorem DState.statusCode_ne_seven (q : DState) : q.statusCode ≠ 7 := by
  cases q <;> decide

/-- R70: of the four words of `enc_status` the table gives out three, 0 to 2. -/
theorem EState.statusCode_ne_three (q : EState) : q.statusCode ≠ 3 := by
  cases q <;> decide

namespace Machine

/-- R17: the port shows the code of the sequencing state, whatever the other registers hold. -/
@[simp] theorem DecRegs.outputs_status (d : DecRegs) : d.outputs.status = d.state.statusCode := rfl

/-- R22: the port shows the code of the sequencing state, whatever the other registers hold. -/
@[simp] theorem EncRegs.outputs_status (e : EncRegs) : e.outputs.status = e.state.statusCode := rfl

/-- Settles O57: each port is the code of its unit's sequencing state, so the tables are read state by state, and the reserved words are
those that no state has for a code. -/
theorem statusCodes : Obligations.StatusCodes := by
  unfold Obligations.StatusCodes
  refine ⟨fun d => ?_, fun e => ?_, fun d => ?_, fun e => ?_⟩
  · rw [DecRegs.outputs_status]
    cases d.state <;> rfl
  · rw [EncRegs.outputs_status]
    cases e.state <;> rfl
  · rw [DecRegs.outputs_status]
    exact d.state.statusCode_ne_seven
  · rw [EncRegs.outputs_status]
    exact e.state.statusCode_ne_three

end Machine
end Sys2Proof
end

section
/-! PROOFS. The matcher's window (R92): each edge by the bound that it gives, MATCH as membership, the edges as the rule writes them. -/

namespace Sys2Proof

/-- R26: the divisor of the tolerance is at least 1. -/
theorem Tolerance.Valid.den_pos {t : Tolerance} (ht : t.Valid) : 0 < t.den := Nat.zero_lt_of_lt ht

namespace Machine

open Sys2Proof.Claims

/-- R92: the lower edge is Mathlib's division rounded up. -/
theorem windowLo_eq_ceilDiv {t : Tolerance} (ht : t.Valid) (nom : Nat) :
    windowLo t nom = (nom * (t.den - t.num)) ⌈/⌉ t.den := by
  rw [windowLo, Nat.ceilDiv_eq_add_pred_div, Nat.add_sub_assoc ht.den_pos]

/-- R92: what lies at or above the lower edge, as a comparison of products. -/
theorem windowLo_le_iff {t : Tolerance} (ht : t.Valid) (m nom : Nat) :
    windowLo t nom ≤ m ↔ nom * (t.den - t.num) ≤ t.den * m := by
  rw [windowLo_eq_ceilDiv ht, ceilDiv_le_iff_le_mul ht.den_pos]

/-- R92: what lies at or below the upper edge, as a comparison of products. -/
theorem le_windowHi_iff {t : Tolerance} (ht : t.Valid) (m nom : Nat) :
    m ≤ windowHi t nom ↔ t.den * m ≤ nom * (t.den + t.num) := by
  rw [windowHi, Nat.le_div_iff_mul_le ht.den_pos, Nat.mul_comm]

/-- R92: the inequality of R91 is membership in the closed window. The sign of `m - nom` decides which edge is at stake; the other
edge is met. -/
theorem within_iff_window {t : Tolerance} (ht : t.Valid) (m nom : Nat) :
    Within t m nom ↔ windowLo t nom ≤ m ∧ m ≤ windowHi t nom := by
  rw [windowLo_le_iff ht, le_windowHi_iff ht, Nat.mul_sub, Nat.mul_add, Nat.mul_comm nom t.den, Nat.mul_comm nom t.num, Within]
  rcases Nat.le_total m nom with h | h
  · obtain ⟨k, rfl⟩ := Nat.exists_eq_add_of_le h
    have hk : ((m : Int) - ((m + k : Nat) : Int)).natAbs = k := by omega
    simp only [hk, Nat.mul_add]
    omega
  · obtain ⟨k, rfl⟩ := Nat.exists_eq_add_of_le h
    have hk : (((nom + k : Nat) : Int) - (nom : Int)).natAbs = k := by omega
    simp only [hk, Nat.mul_add]
    omega

/-- R91: MATCH answers the inequality. -/
theorem matchDuration_iff_within (t : Tolerance) (m nom : Dur) :
    matchDuration t m nom = true ↔ Within t m.toNat nom.toNat := by
  rw [matchDuration, decide_eq_true_eq, absDiff_eq_natAbs, Within]

/-- R92: MATCH holds exactly between the edges. -/
theorem matchDuration_iff_window {t : Tolerance} (ht : t.Valid) (m nom : Dur) :
    matchDuration t m nom = true ↔ windowLo t nom.toNat ≤ m.toNat ∧ m.toNat ≤ windowHi t nom.toNat := by
  rw [matchDuration_iff_within, within_iff_window ht]

/-- R92: the lower edge is the ceiling of the rational that the rule writes. -/
theorem windowLo_eq_ceil {t : Tolerance} (ht : t.Valid) (nom : Nat) :
    (windowLo t nom : ℤ) = ⌈(nom : ℚ) * ((t.den : ℚ) - t.num) / t.den⌉ := by
  have hd : (0 : ℚ) < t.den := Nat.cast_pos.2 ht.den_pos
  rw [← Nat.cast_sub ht.le, ← Nat.cast_mul, ← Int.natCast_ceil_eq_ceil (by positivity), Nat.cast_inj]
  refine eq_of_forall_ge_iff fun m => ?_
  rw [windowLo_le_iff ht, Nat.ceil_le, div_le_iff₀' hd]
  norm_cast

/-- R92: the upper edge is the floor of the rational that the rule writes. -/
theorem windowHi_eq_floor (t : Tolerance) (nom : Nat) :
    (windowHi t nom : ℤ) = ⌊(nom : ℚ) * ((t.den : ℚ) + t.num) / t.den⌋ := by
  rw [← Nat.cast_add, ← Nat.cast_mul, Rat.floor_natCast_div_natCast]
  rfl

/-- R92: where the tolerated distance is a whole number `d`, the lower edge is `nom - d`. -/
theorem windowLo_add_of_whole {t : Tolerance} (ht : t.Valid) {nom d : Nat} (hw : nom * t.num = t.den * d) :
    windowLo t nom + d = nom := by
  have hdn : d ≤ nom := by
    refine Nat.le_of_mul_le_mul_left ?_ ht.den_pos
    rw [← hw, Nat.mul_comm]
    exact Nat.mul_le_mul_right nom ht.le
  have hlo : windowLo t nom = nom - d := by
    refine eq_of_forall_ge_iff fun m => ?_
    rw [windowLo_le_iff ht, Nat.mul_sub, hw, Nat.mul_comm nom, ← Nat.mul_sub, Nat.mul_le_mul_left_iff ht.den_pos]
  omega

/-- R92: where the tolerated distance is a whole number `d`, the upper edge is `nom + d`. -/
theorem windowHi_of_whole {t : Tolerance} (ht : t.Valid) {nom d : Nat} (hw : nom * t.num = t.den * d) :
    windowHi t nom = nom + d := by
  rw [windowHi, Nat.mul_add, hw, Nat.mul_comm nom, ← Nat.mul_add, Nat.mul_div_cancel_left _ ht.den_pos]

/-- Settles O11: the edges and the membership are the lemmas above; an upper edge beyond the widest duration bounds no duration. -/
theorem matchIsAClosedWindow : Obligations.MatchIsAClosedWindow := by
  unfold Obligations.MatchIsAClosedWindow
  intro t m nom ht
  refine ⟨windowLo_eq_ceil ht _, windowHi_eq_floor t _, matchDuration_iff_window ht m nom,
    fun d hw => ⟨windowLo_add_of_whole ht hw, windowHi_of_whole ht hw⟩, fun hhi => ?_⟩
  have hm : m.toNat ≤ windowHi t nom.toNat := (Nat.le_sub_one_of_lt m.isLt).trans hhi.le
  rw [matchDuration_iff_window ht, and_iff_left hm]

end Machine
end Sys2Proof
end

section
/-! PROOFS. The mark classifier (R93): its three answers, and where its two windows share a duration. -/

namespace Sys2Proof.Machine

open Sys2Proof.Claims

/-- R93: the answer is Bit 1 exactly when `ONE` matches, whatever `ZERO` does. -/
theorem classifyMark_eq_some_true_iff (t : Tolerance) (m : Dur) :
    classifyMark t m = some true ↔ matchDuration t m Config.oneMark = true := by
  cases h1 : matchDuration t m Config.oneMark <;> simp [classifyMark, h1]

/-- R93: the answer is Bit 0 exactly when `ZERO` alone matches. -/
theorem classifyMark_eq_some_false_iff (t : Tolerance) (m : Dur) :
    classifyMark t m = some false ↔
      ¬ matchDuration t m Config.oneMark = true ∧ matchDuration t m Config.zeroMark = true := by
  cases h1 : matchDuration t m Config.oneMark <;> simp [classifyMark, h1]

/-- R93: the answer is NoSymbol exactly when neither mark matches. -/
theorem classifyMark_eq_none_iff (t : Tolerance) (m : Dur) :
    classifyMark t m = none ↔
      ¬ matchDuration t m Config.oneMark = true ∧ ¬ matchDuration t m Config.zeroMark = true := by
  cases h1 : matchDuration t m Config.oneMark <;> simp [classifyMark, h1]

/-- R91, R93: MATCH against the nominal of `ONE`. -/
theorem matchDuration_oneMark_iff (t : Tolerance) (m : Dur) :
    matchDuration t m Config.oneMark = true ↔ Within t m.toNat 1200 := by
  have h : Config.oneMark.toNat = 1200 := mod_durWidth_1200
  rw [matchDuration_iff_within, h]

/-- R91, R93: MATCH against the nominal of `ZERO`. -/
theorem matchDuration_zeroMark_iff (t : Tolerance) (m : Dur) :
    matchDuration t m Config.zeroMark = true ↔ Within t m.toNat 600 := by
  have h : Config.zeroMark.toNat = 600 := mod_durWidth_600
  rw [matchDuration_iff_within, h]

/-- R92: the lower edge is at most the nominal. -/
theorem windowLo_le_nominal {t : Tolerance} (ht : t.Valid) (nom : Nat) : windowLo t nom ≤ nom := by
  rw [windowLo_le_iff ht, Nat.mul_comm]
  exact Nat.mul_le_mul_right nom (Nat.sub_le _ _)

/-- R92: the upper edge is at least the nominal. -/
theorem nominal_le_windowHi {t : Tolerance} (ht : t.Valid) (nom : Nat) : nom ≤ windowHi t nom := by
  rw [le_windowHi_iff ht, Nat.mul_comm]
  exact Nat.mul_le_mul_left nom (Nat.le_add_right _ _)

/-- R92: a wider nominal has no smaller lower edge. -/
theorem windowLo_mono (t : Tolerance) {a b : Nat} (h : a ≤ b) : windowLo t a ≤ windowLo t b :=
  Nat.div_le_div_right (Nat.add_le_add_right (Nat.mul_le_mul_right _ h) _)

/-- R93: two windows share a number exactly when the upper edge of the smaller nominal reaches the lower edge of the larger one, which
is then itself shared. -/
theorem exists_within_both_iff {t : Tolerance} (ht : t.Valid) {a b : Nat} (hab : a ≤ b) (hb : b < 2 ^ Config.durWidth) :
    (∃ m : Dur, Within t m.toNat b ∧ Within t m.toNat a) ↔ windowLo t b ≤ windowHi t a := by
  simp only [within_iff_window ht]
  constructor
  · rintro ⟨m, ⟨hlo, -⟩, -, hhi⟩
    exact hlo.trans hhi
  · intro h
    have hlo : windowLo t b ≤ b := windowLo_le_nominal ht b
    refine ⟨BitVec.ofNat Config.durWidth (windowLo t b), ?_⟩
    rw [BitVec.toNat_ofNat, Nat.mod_eq_of_lt (hlo.trans_lt hb)]
    exact ⟨⟨le_rfl, hlo.trans (nominal_le_windowHi ht b)⟩, windowLo_mono t hab, h⟩

/-- R93: from 1/3 on, 800 lies in both windows; edges that cross give 1200(1-t) <= 600(1+t). -/
theorem windowLo_1200_le_windowHi_600_iff {t : Tolerance} (ht : t.Valid) :
    windowLo t 1200 ≤ windowHi t 600 ↔ t.den ≤ 3 * t.num := by
  constructor
  · intro h
    have hlo := (windowLo_le_iff ht _ 1200).1 le_rfl
    have hhi := (le_windowHi_iff ht _ 600).1 h
    omega
  · intro h
    have hlo : windowLo t 1200 ≤ 800 := (windowLo_le_iff ht 800 1200).2 (by omega)
    have hhi : 800 ≤ windowHi t 600 := (le_windowHi_iff ht 800 600).2 (by omega)
    exact hlo.trans hhi

/-- Settles O13: the classifier's answers by what matches, then the windows' common durations by the edges, then the edges by 1/3. -/
theorem markClassification : Obligations.MarkClassification := by
  unfold Obligations.MarkClassification
  intro t ht
  refine ⟨fun m => ?_, exists_within_both_iff ht (by decide) (Nat.lt_of_le_of_lt ?_ Config.oneMark.isLt),
    windowLo_1200_le_windowHi_600_iff ht⟩
  · rw [← matchDuration_oneMark_iff, ← matchDuration_zeroMark_iff]
    exact ⟨classifyMark_eq_some_true_iff t m, classifyMark_eq_some_false_iff t m, classifyMark_eq_none_iff t m⟩
  · exact mod_durWidth_1200.ge

end Sys2Proof.Machine
end

section
/-! PROOFS. The decoder's micro-operations (R101 to R106): what a rest state is by the ports, each check as the inequality of R91, each
step by the cases of its pseudocode. -/

namespace Sys2Proof.Machine

open Sys2Proof.Claims

variable {s : State} {t : Tolerance} {b : PulseBuffer} {d : DecRegs}

/-! ### Rest states -/

/-- R17: `dec_busy` is 0 exactly in the rest states. -/
theorem decRests_iff : DecRests s ↔ s.dec.busy = false := by
  cases h : s.dec.state <;> simp [DecRests, DecRegs.busy, DState.scanning, h]

/-- R107: the selection in a scanning state is by the state, and before a space by the length; the start input does not enter. -/
theorem selectDec_scanning {q : DState} (h : q.scanning = true) (start start' : Bool) (o l : Len) :
    selectDec q start o l = selectDec q start' o l := by
  cases q <;> simp [DState.scanning] at h <;> rfl

/-! ### The checks as inequalities -/

/-- R91, R102: the header check. -/
theorem takes_hdr_iff (t : Tolerance) (m : Dur) : Symbol.takes t .hdr m = true ↔ Within t m.toNat 2400 := by
  have h : (Symbol.entry .hdr).dur.toNat = 2400 := mod_durWidth_2400
  rw [Symbol.takes, matchDuration_iff_within, h]

/-- R91, R103: the check of a space. -/
theorem takes_sp_iff (t : Tolerance) (m : Dur) : Symbol.takes t .sp m = true ↔ Within t m.toNat 600 := by
  have h : (Symbol.entry .sp).dur.toNat = 600 := mod_durWidth_600
  rw [Symbol.takes, matchDuration_iff_within, h]

/-- R93: a mark is Bit 1 when it lies within `ONE`. -/
theorem classifyMark_of_one {m : Dur} (h : Within t m.toNat 1200) : classifyMark t m = some true :=
  (classifyMark_eq_some_true_iff t m).2 ((matchDuration_oneMark_iff t m).2 h)

/-- R93: a mark is Bit 0 when it lies within `ZERO` and not within `ONE`. -/
theorem classifyMark_of_zero {m : Dur} (h1 : ¬ Within t m.toNat 1200) (h0 : Within t m.toNat 600) :
    classifyMark t m = some false :=
  (classifyMark_eq_some_false_iff t m).2 ⟨mt (matchDuration_oneMark_iff t m).1 h1, (matchDuration_zeroMark_iff t m).2 h0⟩

/-- R93: a mark is no symbol when it lies within neither. -/
theorem classifyMark_of_neither {m : Dur} (h1 : ¬ Within t m.toNat 1200) (h0 : ¬ Within t m.toNat 600) :
    classifyMark t m = none :=
  (classifyMark_eq_none_iff t m).2 ⟨mt (matchDuration_oneMark_iff t m).1 h1, mt (matchDuration_zeroMark_iff t m).1 h0⟩

/-- R93: a mark within `ONE` or `ZERO` is a symbol. -/
theorem exists_classifyMark {m : Dur} (h : Within t m.toNat 1200 ∨ Within t m.toNat 600) :
    ∃ bit, classifyMark t m = some bit := by
  by_cases h1 : Within t m.toNat 1200
  · exact ⟨true, classifyMark_of_one h1⟩
  · exact ⟨false, classifyMark_of_zero h1 (h.resolve_left h1)⟩

/-! ### The registers' arithmetic -/

/-- R12: the counter of entries steps by one, modulo its width. -/
theorem offset_succ_eq_ofNat (o : Len) : o + 1 = BitVec.ofNat Config.lenWidth (o.toNat + 1) := by
  simp [BitVec.ofNat_add]

/-- R66: `(value << 1) | b` as a number, modulo the width of `value`. -/
theorem appendBit_eq_ofNat (v : Value) (bit : Bool) : appendBit v bit = BitVec.ofNat 32 (2 * v.toNat + bit.toNat) :=
  BitVec.eq_of_toNat_eq (by rw [appendBit_toNat, BitVec.toNat_ofNat])

/-! ### The steps by the cases of their pseudocode -/

theorem DecRegs.headerStep_short (hl : d.len.toNat < 2) : d.headerStep t b = d.raise .boundsFault := if_pos hl

theorem DecRegs.headerStep_match (hl : 2 ≤ d.len.toNat) (hm : Symbol.takes t .hdr (b.read 1) = true) :
    d.headerStep t b = { d with state := .expectSpace } := by
  rw [headerStep, if_neg hl.not_gt, if_pos hm]

theorem DecRegs.headerStep_mismatch (hl : 2 ≤ d.len.toNat) (hm : ¬ Symbol.takes t .hdr (b.read 1) = true) :
    d.headerStep t b = d.raise .headerMarkError := by
  rw [headerStep, if_neg hl.not_gt, if_neg hm]

theorem DecRegs.spaceStep_match (hm : Symbol.takes t .sp (b.read d.offset.toNat) = true) :
    d.spaceStep t b = { d with offset := d.offset + 1, state := .expectMark } := if_pos hm

theorem DecRegs.spaceStep_mismatch (hm : ¬ Symbol.takes t .sp (b.read d.offset.toNat) = true) :
    d.spaceStep t b = d.raise .dataSpaceError := if_neg hm

theorem DecRegs.markStep_missing (hl : d.len.toNat ≤ d.offset.toNat) : d.markStep t b = d.raise .boundsFault := if_pos hl

theorem DecRegs.markStep_noSymbol (hl : d.offset.toNat < d.len.toNat) (hc : classifyMark t (b.read d.offset.toNat) = none) :
    d.markStep t b = d.raise .dataMarkError := by
  rw [markStep, if_neg hl.not_ge, hc]

theorem DecRegs.markStep_full (hl : d.offset.toNat < d.len.toNat) {bit : Bool}
    (hc : classifyMark t (b.read d.offset.toNat) = some bit) (hf : bitsHeld d.offset = Config.maxBits) :
    d.markStep t b = d.raise .capacityFault := by
  rw [markStep, if_neg hl.not_ge, hc]
  exact if_pos hf

theorem DecRegs.markStep_append (hl : d.offset.toNat < d.len.toNat) {bit : Bool}
    (hc : classifyMark t (b.read d.offset.toNat) = some bit) (hf : bitsHeld d.offset ≠ Config.maxBits) :
    d.markStep t b = { d with value := appendBit d.value bit, offset := d.offset + 1, state := .expectSpace } := by
  rw [markStep, if_neg hl.not_ge, hc]
  exact if_neg hf

/-- R49, R107: at the end of the sequence nothing is read. -/
theorem DecRegs.bufAddr_finish (h : d.state = .expectSpace) (hl : d.len.toNat ≤ d.offset.toNat) : d.bufAddr = 0 := by
  simp [DecRegs.bufAddr, h, hl.not_gt]

/-- R49: the port reads 0 in every step when the decoder's registers ask for no entry. -/
theorem State.bufAddr_of_dec (h : s.dec.bufAddr = 0) (m : Moves) : s.bufAddr m = 0 := by
  cases m <;> simp [State.bufAddr, h]

/-- Settles O15: the operation runs at rest, writes the registers of R101, and a decoder at rest reads nothing. -/
theorem dStartOverwritesTheDecoder : Obligations.DStartOverwritesTheDecoder := by
  unfold Obligations.DStartOverwritesTheDecoder
  intro s hr hp
  have hb : s.dec.busy = false := decRests_iff.1 hr
  refine ⟨_, execDStart_next.2 ⟨⟨hb, hp⟩, rfl⟩, rfl, ?_, fun m => State.bufAddr_rest hb⟩
  cases h : s.ports.decIgnoreHeader <;> exact ⟨rfl, rfl, rfl⟩

/-- Settles O16: D.HEADER runs in `D_EXPECT_HEADER`, and its outcome is by the length, then by MATCH as R91's inequality. -/
theorem dHeaderChecksTheHeader : Obligations.DHeaderChecksTheHeader := by
  unfold Obligations.DHeaderChecksTheHeader
  intro s hs
  have hrun : exec .dHeader s = .next (s.withDec (s.dec.headerStep s.tol s.buf)) := execDHeader_next.2 ⟨hs, rfl⟩
  rw [hrun, ← takes_hdr_iff]
  refine ⟨fun hl => ?_, fun hl hm => ?_, fun hl hm => ?_⟩
  · rw [DecRegs.headerStep_short hl]; rfl
  · rw [DecRegs.headerStep_match hl hm]; rfl
  · rw [DecRegs.headerStep_mismatch hl hm]; rfl

/-- Settles O17: D.SPACE runs before an entry that exists, and its outcome is by MATCH as R91's inequality. -/
theorem dSpaceChecksTheSpace : Obligations.DSpaceChecksTheSpace := by
  unfold Obligations.DSpaceChecksTheSpace
  intro s hs hl
  have hrun : exec .dSpace s = .next (s.withDec (s.dec.spaceStep s.tol s.buf)) := execDSpace_next.2 ⟨⟨hs, hl⟩, rfl⟩
  rw [hrun, ← takes_sp_iff, ← offset_succ_eq_ofNat]
  refine ⟨fun hm => ?_, fun hm => ?_⟩
  · rw [DecRegs.spaceStep_match hm]; rfl
  · rw [DecRegs.spaceStep_mismatch hm]; rfl

/-- Settles O18: D.MARK runs in `D_EXPECT_MARK`, and its outcome is by the length, the classifier's answer and the bits held, in this
order; the appended bit is the answer. -/
theorem dMarkClassifiesAndAppends : Obligations.DMarkClassifiesAndAppends := by
  unfold Obligations.DMarkClassifiesAndAppends
  intro s hs m
  have hrun : exec .dMark s = .next (s.withDec (s.dec.markStep s.tol s.buf)) := execDMark_next.2 ⟨hs, rfl⟩
  rw [hrun, ← offset_succ_eq_ofNat]
  refine ⟨fun hl => ?_, fun hl h1 h0 => ?_, fun hl hc hf => ?_, fun hl h1 hf => ?_, fun hl h1 h0 hf => ?_⟩
  · rw [DecRegs.markStep_missing hl]; rfl
  · rw [DecRegs.markStep_noSymbol hl (classifyMark_of_neither h1 h0)]; rfl
  · obtain ⟨bit, hbit⟩ := exists_classifyMark hc
    rw [DecRegs.markStep_full hl hbit hf]; rfl
  · rw [DecRegs.markStep_append hl (classifyMark_of_one h1) hf, appendBit_eq_ofNat]; rfl
  · rw [DecRegs.markStep_append hl (classifyMark_of_zero h1 h0) hf, appendBit_eq_ofNat]; rfl

/-- Settles O19: D.FINISH runs at the end of the sequence, where no entry is read; the flags are those of `D_SUCCESS`. -/
theorem dFinishBuildsThePacket : Obligations.DFinishBuildsThePacket := by
  unfold Obligations.DFinishBuildsThePacket
  intro s hs hl
  exact ⟨_, execDFinish_next.2 ⟨⟨hs, hl⟩, rfl⟩, rfl, ⟨rfl, rfl, rfl⟩, rfl,
    State.bufAddr_of_dec (DecRegs.bufAddr_finish hs hl)⟩

/-- Settles O20: D.HOLD runs at rest, where no entry is read; in a scanning state the selection does not look at the start input. -/
theorem dHoldChangesNothing : Obligations.DHoldChangesNothing := by
  unfold Obligations.DHoldChangesNothing
  intro s
  refine ⟨fun hr hp => ?_, fun hbusy start => selectDec_scanning hbusy _ _ _ _⟩
  have hb : s.dec.busy = false := decRests_iff.1 hr
  exact ⟨execDHold_next.2 ⟨⟨hb, hp⟩, rfl⟩, fun m => State.bufAddr_rest hb⟩

end Sys2Proof.Machine
end

section
/-! PROOFS. The decoder's table of steps (R107): the selected operation and the registers it writes, and the states that each case of a
scanning step leads to. -/

namespace Sys2Proof.Machine

open Sys2Proof.Claims

variable {s : State} {t : Tolerance} {b : PulseBuffer} {d d' : DecRegs}

/-- R107: a decoder at rest runs D.START or D.HOLD, by the start input. -/
theorem State.decOp_rest (h : s.dec.busy = false) : s.decOp = if s.ports.decStart then .dStart else .dHold := by
  cases hs : s.dec.state <;> simp [DecRegs.busy, DState.scanning, hs] at h <;> simp [State.decOp, selectDec, hs]

theorem decNext_start (h : s.dec.busy = false) (hp : s.ports.decStart = true) :
    decNext s = DecRegs.start s.ports.decIgnoreHeader s.ports.decSeqLen := by
  simp [decNext, h, hp]

theorem decNext_hold (h : s.dec.busy = false) (hp : s.ports.decStart = false) : decNext s = s.dec := by
  simp [decNext, h, hp]

/-- R107: while scanning, the selected operation is one step of the scan. -/
theorem decNext_scanCase (h : s.dec.busy = true) : ScanCase s.tol s.buf s.dec (decNext s) := by
  rw [decNext, if_pos h]
  exact DecRegs.scanStep_cases _ _ _ h

/-- R101: D.START leads to the first check, of the header or of a space. -/
theorem DecRegs.start_state (ih : Bool) (len : Len) :
    (DecRegs.start ih len).state = .expectHeader ∨ (DecRegs.start ih len).state = .expectSpace := by
  cases ih
  · exact .inl rfl
  · exact .inr rfl

/-- R102: the states that D.HEADER leads to. -/
theorem ScanCase.state_of_header (c : ScanCase t b d d') (h : d.state = .expectHeader) :
    d'.state = .expectSpace ∨ d'.state = .errHeaderMark ∨ d'.state = .faultBounds := by
  cases c with
  | header => exact .inl rfl
  | badHeader => exact .inr (.inl rfl)
  | noHeader => exact .inr (.inr rfl)
  | _ => simp_all

/-- R103: the states that D.SPACE leads to. -/
theorem ScanCase.state_of_space (c : ScanCase t b d d') (h : d.state = .expectSpace) (hl : d.offset.toNat < d.len.toNat) :
    d'.state = .expectMark ∨ d'.state = .errDataSpace := by
  cases c with
  | space => exact .inl rfl
  | badSpace => exact .inr rfl
  | finish _ hl' => exact absurd hl hl'.not_gt
  | _ => simp_all

/-- R105: D.FINISH leads to `D_SUCCESS`. -/
theorem ScanCase.state_of_finish (c : ScanCase t b d d') (h : d.state = .expectSpace) (hl : d.len.toNat ≤ d.offset.toNat) :
    d'.state = .success := by
  cases c with
  | finish => rfl
  | space _ hl' => exact absurd hl hl'.not_ge
  | badSpace _ hl' => exact absurd hl hl'.not_ge
  | _ => simp_all

/-- R104: the states that D.MARK leads to. -/
theorem ScanCase.state_of_mark (c : ScanCase t b d d') (h : d.state = .expectMark) :
    d'.state = .expectSpace ∨ d'.state = .errDataMark ∨ d'.state = .faultBounds ∨ d'.state = .faultCapacity := by
  cases c with
  | mark => exact .inl rfl
  | badMark => exact .inr (.inl rfl)
  | noMark => exact .inr (.inr (.inl rfl))
  | full => exact .inr (.inr (.inr rfl))
  | _ => simp_all

/-- Settles O7: the selected operation writes `decNext`; the rows of a rest state are those of the start input, the rows of a scanning
state those of the cases of a scanning step. -/
theorem decoderStepTable : Obligations.DecoderStepTable := by
  unfold Obligations.DecoderStepTable
  intro s
  refine ⟨_, exec_decOp s, fun hr hp => ?_, fun hr hp => ?_, fun hs => ?_, fun hs hl => ?_, fun hs hl => ?_, fun hs => ?_⟩
  · have hb : s.dec.busy = false := decRests_iff.1 hr
    rw [State.decOp_rest hb, if_pos hp, State.withDec_dec, decNext_start hb hp]
    exact ⟨rfl, DecRegs.start_state _ _⟩
  · have hb : s.dec.busy = false := decRests_iff.1 hr
    rw [State.decOp_rest hb, if_neg (by simp [hp]), State.withDec_dec, decNext_hold hb hp]
    exact ⟨rfl, rfl⟩
  · exact ⟨by simp [State.decOp, selectDec, hs], (decNext_scanCase (by rw [DecRegs.busy, hs]; rfl)).state_of_header hs⟩
  · exact ⟨by simp [State.decOp, selectDec, hs, hl], (decNext_scanCase (by rw [DecRegs.busy, hs]; rfl)).state_of_space hs hl⟩
  · exact ⟨by simp [State.decOp, selectDec, hs, hl.not_gt], (decNext_scanCase (by rw [DecRegs.busy, hs]; rfl)).state_of_finish hs hl⟩
  · exact ⟨by simp [State.decOp, selectDec, hs], (decNext_scanCase (by rw [DecRegs.busy, hs]; rfl)).state_of_mark hs⟩

end Sys2Proof.Machine
end

section
/-! PROOFS. The loop of R109 cut at the mark, and the sequence of the buffer from an index on: the two sides that a scan relates. -/

namespace Sys2Proof.Machine

variable {t : Tolerance} {b : PulseBuffer}

/-! ### The function of R109 -/

/-- The second half of the loop of R109: the entries from a mark on, with `n` bits already in `value`. -/
def decodeMark (t : Tolerance) : List Dur → Nat → Nat → DecodeResult
  | [], _, _ => .boundsFault
  | m :: rest, n, value =>
    match classifyMark t m with
    | none => .dataMarkError .oneOrZeroBitDuration
    | some bit => if n = 32 then .capacityFault else decodePairs t rest (n + 1) (2 * value + bit.toNat)

@[simp] theorem decodePairs_nil (n value : Nat) : decodePairs t [] n value = .success value n .milestag := rfl

/-- R109: a space that matches leads to the loop's second half. -/
theorem decodePairs_space {e : Dur} (hm : matchDuration t e 600#Config.durWidth = true) (rest : List Dur) (n value : Nat) :
    decodePairs t (e :: rest) n value = decodeMark t rest n value := by
  cases rest <;> exact if_pos hm

/-- R109: a space that does not match ends the loop. -/
theorem decodePairs_badSpace {e : Dur} (hm : matchDuration t e 600#Config.durWidth = false) (rest : List Dur) (n value : Nat) :
    decodePairs t (e :: rest) n value = .dataSpaceError .interBitSpaceDuration := by
  cases rest <;> exact if_neg (ne_true_of_eq_false hm)

@[simp] theorem decodeMark_nil (n value : Nat) : decodeMark t [] n value = .boundsFault := rfl

theorem decodeMark_noSymbol {m : Dur} (hc : classifyMark t m = none) (rest : List Dur) (n value : Nat) :
    decodeMark t (m :: rest) n value = .dataMarkError .oneOrZeroBitDuration := by
  simp [decodeMark, hc]

theorem decodeMark_full {m : Dur} {bit : Bool} (hc : classifyMark t m = some bit) (rest : List Dur) (value : Nat) :
    decodeMark t (m :: rest) 32 value = .capacityFault := by
  simp [decodeMark, hc]

theorem decodeMark_append {m : Dur} {bit : Bool} (hc : classifyMark t m = some bit) (rest : List Dur) {n : Nat} (hn : n ≠ 32)
    (value : Nat) : decodeMark t (m :: rest) n value = decodePairs t rest (n + 1) (2 * value + bit.toNat) := by
  simp [decodeMark, hc, hn]

/-- R109: without the header check the loop starts at index 2. -/
theorem decodeFunction_true (seq : List Dur) : decodeFunction t seq true = decodePairs t (seq.drop 2) 0 0 := rfl

/-- R109: the header check needs two entries. -/
theorem decodeFunction_short {seq : List Dur} (h : seq.length < 2) : decodeFunction t seq false = .boundsFault := by
  match seq, h with
  | [], _ => rfl
  | [_], _ => rfl

/-- R109: with a header that matches the loop starts at index 2. -/
theorem decodeFunction_header {h : Dur} (hm : matchDuration t h 2400#Config.durWidth = true) (g : Dur) (rest : List Dur) :
    decodeFunction t (g :: h :: rest) false = decodePairs t rest 0 0 := if_pos hm

/-- R109: a header that does not match is the outcome. -/
theorem decodeFunction_badHeader {h : Dur} (hm : matchDuration t h 2400#Config.durWidth = false) (g : Dur) (rest : List Dur) :
    decodeFunction t (g :: h :: rest) false = .headerMarkError .headerMarkDuration := if_neg (ne_true_of_eq_false hm)

/-! ### The sequence of the buffer -/

@[simp] theorem PulseBuffer.sequence_length (n : Nat) : (b.sequence n).length = n := by
  simp [PulseBuffer.sequence]

/-- R41: from an index below the length on, the sequence is that entry and the rest. -/
theorem PulseBuffer.drop_sequence {i n : Nat} (h : i < n) :
    (b.sequence n).drop i = b.read i :: (b.sequence n).drop (i + 1) := by
  rw [List.drop_eq_getElem_cons (by simpa using h)]
  simp [PulseBuffer.sequence]

/-- R41: from the length on there is nothing. -/
theorem PulseBuffer.drop_sequence_end {i n : Nat} (h : n ≤ i) : (b.sequence n).drop i = [] :=
  List.drop_eq_nil_of_le (by simpa using h)

/-- R102, R109: the sequence as the header check sees it. -/
theorem PulseBuffer.sequence_header {n : Nat} (h : 2 ≤ n) :
    b.sequence n = b.read 0 :: b.read 1 :: (b.sequence n).drop 2 := by
  rw [← PulseBuffer.drop_sequence (by omega), ← PulseBuffer.drop_sequence (by omega), List.drop_zero]

end Sys2Proof.Machine
end

section
/-! PROOFS. DECODE is the function of R109: from every state of a scan the function of what is left to read gives the scan's outcome,
each step keeps that outcome, and after D.START 67 steps end the scan (R110). -/

namespace Sys2Proof

/-- R69: the status 1 is that of `D_SUCCESS` alone. -/
theorem DState.eq_success_of_statusCode {q : DState} (h : q.statusCode.toNat = 1) : q = .success := by
  revert h
  cases q <;> decide

namespace Machine

variable {t : Tolerance} {b : PulseBuffer} {d d' : DecRegs}

/-! ### A scan ends -/

/-- R110: a bound on the steps that a scan still takes, by the entries left and by the offset 67 that no scan passes. -/
def DecRegs.stepsLeft (d : DecRegs) : Nat :=
  match d.state with
  | .expectHeader => min 67 (1 + (d.len.toNat - 2) + 1)
  | .expectSpace | .expectMark => min (68 - d.offset.toNat) (d.len.toNat - d.offset.toNat + 1)
  | .idle | .success | .errHeaderMark | .errDataSpace | .errDataMark | .faultBounds | .faultCapacity => 0

/-- R110: a scan that goes on has a step left. -/
theorem DecInv.stepsLeft_pos (i : DecInv d) (h : d.busy = true) : 0 < d.stepsLeft := by
  have hcap := i.offsetCap
  cases hs : d.state <;> simp [DecRegs.busy, DState.scanning, hs] at h <;> simp [DecRegs.stepsLeft, hs] <;> omega

/-- R110: a failure ends the scan. -/
@[simp] theorem DecRegs.stepsLeft_raise (d : DecRegs) (x : DecFailure) : (d.raise x).stepsLeft = 0 := by
  cases x <;> rfl

/-- R110: every step of a scan takes one from the steps left. -/
theorem ScanCase.stepsLeft_lt (c : ScanCase t b d d') (i : DecInv d) (h : d.busy = true) : d'.stepsLeft < d.stepsLeft := by
  have hpos := i.stepsLeft_pos h
  cases c with
  | header hs hl _ =>
    obtain ⟨ho, -, -⟩ := i.header hs
    simp only [DecRegs.stepsLeft, hs]
    omega
  | space hs hl _ =>
    have ho := offset_succ_toNat (o := d.offset) (by have := d.len.isLt; omega)
    simp only [DecRegs.stepsLeft, hs] at hpos ⊢
    omega
  | mark hs hl _ _ _ =>
    have ho := offset_succ_toNat (o := d.offset) (by have := d.len.isLt; omega)
    simp only [DecRegs.stepsLeft, hs] at hpos ⊢
    omega
  | finish _ _ => exact hpos
  | _ => rwa [DecRegs.stepsLeft_raise]

/-- R110: as many steps as are left bring a scan to rest. -/
theorem DecInv.scanRun_rests (t : Tolerance) (b : PulseBuffer) (n : Nat) (i : DecInv d) (hn : d.stepsLeft ≤ n) :
    (DecRegs.scanRun t b n d).busy = false := by
  induction n generalizing d with
  | zero => exact Bool.eq_false_of_not_eq_true fun h => (i.stepsLeft_pos h).not_ge hn
  | succ n ih =>
    cases h : d.busy
    · rwa [DecRegs.scanRun_rest t b _ d h]
    · have c := DecRegs.scanStep_cases t b d h
      rw [DecRegs.scanRun_succ]
      exact ih (i.scanCase c) (Nat.le_of_lt_succ ((c.stepsLeft_lt i h).trans_le hn))

/-- R110: after D.START at most 67 steps are left. -/
theorem DecRegs.stepsLeft_start_le (ih : Bool) (len : Len) : (DecRegs.start ih len).stepsLeft ≤ 67 := by
  cases ih <;> simp [DecRegs.stepsLeft, DecRegs.start]

/-! ### What a scan will come to -/

/-- The function of R109 from the point where a scan stands: over the entries not yet read, with the bits held; after the scan, the
outcome it shows. -/
def DecRegs.outlook (t : Tolerance) (b : PulseBuffer) (d : DecRegs) : Option DecodeResult :=
  match d.state with
  | .expectHeader => some (decodeFunction t (b.sequence d.len.toNat) false)
  | .expectSpace =>
    some (decodePairs t ((b.sequence d.len.toNat).drop d.offset.toNat) ((d.offset.toNat - 2) / 2) d.value.toNat)
  | .expectMark =>
    some (decodeMark t ((b.sequence d.len.toNat).drop d.offset.toNat) ((d.offset.toNat - 3) / 2) d.value.toNat)
  | .idle | .success | .errHeaderMark | .errDataSpace | .errDataMark | .faultBounds | .faultCapacity => d.result

theorem DecRegs.outlook_expectHeader (h : d.state = .expectHeader) :
    d.outlook t b = some (decodeFunction t (b.sequence d.len.toNat) false) := by
  rw [outlook, h]

theorem DecRegs.outlook_expectSpace (h : d.state = .expectSpace) : d.outlook t b =
    some (decodePairs t ((b.sequence d.len.toNat).drop d.offset.toNat) ((d.offset.toNat - 2) / 2) d.value.toNat) := by
  rw [outlook, h]

theorem DecRegs.outlook_expectMark (h : d.state = .expectMark) : d.outlook t b =
    some (decodeMark t ((b.sequence d.len.toNat).drop d.offset.toNat) ((d.offset.toNat - 3) / 2) d.value.toNat) := by
  rw [outlook, h]

theorem DecRegs.outlook_rest (h : d.busy = false) : d.outlook t b = d.result := by
  cases hs : d.state <;> simp [DecRegs.busy, DState.scanning, hs] at h <;> simp [DecRegs.outlook, hs]

/-- R109: after D.START the outlook is the function of the whole sequence. -/
theorem DecRegs.outlook_start (ih : Bool) (len : Len) :
    (DecRegs.start ih len).outlook t b = some (decodeFunction t (b.sequence len.toNat) ih) := by
  cases ih
  · rfl
  · simp [DecRegs.outlook, DecRegs.start, decodeFunction_true]

/-- R109: no step of a scan changes what it will come to. The entry that the step reads is the next one of the loop; a failed check is
the outcome of both. -/
theorem ScanCase.outlook_eq (c : ScanCase t b d d') (i : DecInv d) : d'.outlook t b = d.outlook t b := by
  have hlen := d.len.isLt
  have hcap := i.offsetCap
  cases c with
  | noHeader hs hl =>
    rw [DecRegs.outlook_expectHeader hs, decodeFunction_short (by simpa using hl)]
    rfl
  | header hs hl hm =>
    obtain ⟨ho, hv, -⟩ := i.header hs
    refine (DecRegs.outlook_expectSpace rfl).trans ?_
    rw [DecRegs.outlook_expectHeader hs, PulseBuffer.sequence_header hl, decodeFunction_header hm, ← PulseBuffer.sequence_header hl]
    simp only [ho, hv]
  | badHeader hs hl hm =>
    rw [DecRegs.outlook_expectHeader hs, PulseBuffer.sequence_header hl, decodeFunction_badHeader hm]
    rfl
  | space hs hl hm =>
    have ho := offset_succ_toNat (o := d.offset) (by omega)
    have hn : (d.offset.toNat + 1 - 3) / 2 = (d.offset.toNat - 2) / 2 := by omega
    refine (DecRegs.outlook_expectMark rfl).trans ?_
    rw [DecRegs.outlook_expectSpace hs, PulseBuffer.drop_sequence hl, decodePairs_space hm]
    simp only [ho, hn]
  | badSpace hs hl hm =>
    rw [DecRegs.outlook_expectSpace hs, PulseBuffer.drop_sequence hl, decodePairs_badSpace hm]
    rfl
  | finish hs hl =>
    have heven := i.evenAtSpace hs
    have hn : (scanBitCount d.offset).toNat = (d.offset.toNat - 2) / 2 := by
      rw [scanBitCount_toNat hcap]; omega
    rw [DecRegs.outlook_expectSpace hs, PulseBuffer.drop_sequence_end hl, decodePairs_nil, ← hn]
    rfl
  | noMark hs hl =>
    rw [DecRegs.outlook_expectMark hs, PulseBuffer.drop_sequence_end hl, decodeMark_nil]
    rfl
  | badMark hs hl hc =>
    rw [DecRegs.outlook_expectMark hs, PulseBuffer.drop_sequence hl, decodeMark_noSymbol hc]
    rfl
  | full hs hl bit hc hf =>
    rw [DecRegs.outlook_expectMark hs, PulseBuffer.drop_sequence hl, hf, decodeMark_full hc]
    rfl
  | mark hs hl bit hc hf =>
    have ho := offset_succ_toNat (o := d.offset) (by omega)
    have hodd := i.oddAtMark hs
    have hlow := i.offsetLow (by simp [hs])
    have hv := i.valueBound (by simp [hs])
    have hlt : (d.offset.toNat - 3) / 2 < 32 := by omega
    have hbits : (d.offset.toNat - 2) / 2 = (d.offset.toNat - 3) / 2 := by omega
    have hn : (d.offset.toNat + 1 - 2) / 2 = (d.offset.toNat - 3) / 2 + 1 := by omega
    refine (DecRegs.outlook_expectSpace rfl).trans ?_
    rw [DecRegs.outlook_expectMark hs, PulseBuffer.drop_sequence hl, decodeMark_append hc _ hf]
    simp only [ho, hn, appendBit_toNat_of_lt bit hlt (hbits ▸ hv)]

/-- R109: the run of a scan keeps what it will come to. -/
theorem DecInv.scanRun_outlook (t : Tolerance) (b : PulseBuffer) (n : Nat) (i : DecInv d) :
    (DecRegs.scanRun t b n d).outlook t b = d.outlook t b := by
  refine (DecRegs.scanRun_keeps (P := fun e => DecInv e ∧ e.outlook t b = d.outlook t b) t b ?_ n d ⟨i, rfl⟩).2
  rintro e e' ⟨ie, he⟩ - c
  exact ⟨ie.scanCase c, (c.outlook_eq ie).trans he⟩

/-- R109: the scan that D.START begins shows, after 67 steps, the outcome of the function. -/
theorem DecRegs.result_scanRun_start (t : Tolerance) (b : PulseBuffer) (ih : Bool) (len : Len) :
    (DecRegs.scanRun t b 67 (.start ih len)).result = some (decodeFunction t (b.sequence len.toNat) ih) := by
  have hrest := (DecInv.start ih len).scanRun_rests t b 67 (DecRegs.stepsLeft_start_le ih len)
  rw [← DecRegs.outlook_rest hrest, (DecInv.start ih len).scanRun_outlook, DecRegs.outlook_start]

/-- R105, R109: on success the bit count is the one of the offset. -/
theorem DecInv.bitcount_of_success (i : DecInv d) (h : d.state = .success) : d.rBitcount.toNat = (d.offset.toNat - 1) / 2 := by
  obtain ⟨-, hn, -, heven⟩ := i.success h
  have hlow := i.offsetLow (by simp [h])
  omega

/-- Settles O34: at rest DECODE is the scan that D.START begins; its outcome is the function's, and the invariant that it keeps ties
the bit count to the offset. -/
theorem decodeComputesTheFunction : Obligations.DecodeComputesTheFunction := by
  unfold Obligations.DecodeComputesTheFunction
  intro s ih len hb
  refine ⟨s.withDec (DecRegs.scanRun s.tol s.buf 67 (.start ih len)), execDecode_next.2 (if_neg (ne_true_of_eq_false hb)),
    DecRegs.result_scanRun_start _ _ _ _, rfl, fun hst => ?_⟩
  exact ((DecInv.start ih len).scanRun _ _ _).bitcount_of_success (DState.eq_success_of_statusCode hst)

end Machine
end Sys2Proof
end

section
/-! PROOFS. The round trip (R139): the frame of R136 built up from its lowest bit, and the loop of R109 run over it. -/

namespace Sys2Proof.Machine

variable {t : Tolerance}

/-! ### The frame bit by bit -/

/-- R67, R136: the pairs of the lowest `n` bits of a value, the highest of them first: the frame without its header mark. -/
def framePairs (v : Value) (n : Nat) : List StreamEntry := (List.range n).flatMap (framePair v n)

theorem encodeFunction_eq_cons (v : Value) (n : Nat) : encodeFunction v n = ⟨.mark, 2400⟩ :: framePairs v n := rfl

@[simp] theorem framePairs_zero (v : Value) : framePairs v 0 = [] := rfl

/-- R67: the pairs after the first one are the pairs of one bit less. -/
theorem framePair_succ (v : Value) (n k : Nat) : framePair v (n + 1) (k + 1) = framePair v n k := by
  rw [framePair, framePair, show n + 1 - 1 - (k + 1) = n - 1 - k by omega]

/-- R67: the pair of the highest bit comes first. -/
theorem framePairs_succ (v : Value) (n : Nat) :
    framePairs v (n + 1) = ⟨.space, 600⟩ :: ⟨.mark, if v.getLsbD n then 1200 else 600⟩ :: framePairs v n := by
  rw [framePairs, List.range_succ_eq_map, List.flatMap_cons, List.flatMap_map]
  simp only [Nat.succ_eq_add_one, framePair_succ]
  rfl

/-! ### DECODE of the frame -/

/-- R41, R139: of the frame the decoder sees the durations: the header mark and the pairs. -/
theorem encodeFunction_durs (v : Value) (n : Nat) :
    (encodeFunction v n).map StreamEntry.dur = 2400#Config.durWidth :: (framePairs v n).map StreamEntry.dur := rfl

/-- R41, R67: the durations of the pairs, from the highest bit on. -/
theorem framePairs_durs_succ (v : Value) (n : Nat) : (framePairs v (n + 1)).map StreamEntry.dur =
    600#Config.durWidth :: (if v.getLsbD n then 1200 else 600) :: (framePairs v n).map StreamEntry.dur := by
  rw [framePairs_succ]
  rfl

/-- R93, R95: below one half the exact mark of a bit is taken for that bit. -/
theorem classifyMark_of_bit (h : 2 * t.num < t.den) (bit : Bool) : classifyMark t (if bit then 1200 else 600) = some bit := by
  cases bit
  · exact classifyMark_zero h
  · exact classifyMark_one t

/-- R139: the loop of R109, with `k` bits already in `value`, appends the bits of the pairs, of which there is room for all. -/
theorem decodePairs_framePairs (h : 2 * t.num < t.den) (v : Value) (n k value : Nat) (hk : k + n ≤ 32) :
    decodePairs t ((framePairs v n).map StreamEntry.dur) k value =
      .success (value * 2 ^ n + v.toNat % 2 ^ n) (k + n) .milestag := by
  induction n generalizing k value with
  | zero => simp [Nat.mod_one]
  | succ n ih =>
    have hbits : (2 * value + (v.getLsbD n).toNat) * 2 ^ n + v.toNat % 2 ^ n = value * 2 ^ (n + 1) + v.toNat % 2 ^ (n + 1) := by
      rw [Nat.mod_pow_succ, ← Nat.toNat_testBit, BitVec.testBit_toNat]
      ring
    rw [framePairs_durs_succ, decodePairs_space (matchDuration_self t _),
      decodeMark_append (classifyMark_of_bit h _) _ (by omega), ih _ _ (by omega), hbits, Nat.add_right_comm, Nat.add_assoc]

/-- R139: DECODE of ENCODE on the level of functions, whatever the gap is and whether or not the header is checked. -/
theorem decodeFunction_encodeFunction (h : 2 * t.num < t.den) (v : Value) {n : Nat} (hn : n ≤ 32) (g : Dur) (ih : Bool) :
    decodeFunction t (g :: (encodeFunction v n).map StreamEntry.dur) ih = .success (v.toNat % 2 ^ n) n .milestag := by
  have hloop : decodePairs t ((framePairs v n).map StreamEntry.dur) 0 0 = .success (v.toNat % 2 ^ n) n .milestag := by
    simpa using decodePairs_framePairs h v n 0 0 (by omega)
  rw [encodeFunction_durs]
  cases ih
  · rw [decodeFunction_header (matchDuration_self t _), hloop]
  · rw [decodeFunction_true, List.drop_succ_cons, List.drop_succ_cons, List.drop_zero, hloop]

/-- Settles O45: DECODE computes the function of the buffer's sequence, the length `2 * bits + 2` fits its register, and the function
gives the request back. -/
theorem decodeOfEncodeIsTheRequest : Obligations.DecodeOfEncodeIsTheRequest := by
  unfold Obligations.DecodeOfEncodeIsTheRequest
  intro s v n g ih hrest hn htol hseq
  obtain ⟨t, hexec, hresult, -, -⟩ := decodeComputesTheFunction s ih (BitVec.ofNat Config.lenWidth (2 * n + 2)) hrest
  rw [BitVec.toNat_ofNat, mod_lenWidth (by omega), hseq, decodeFunction_encodeFunction htol v hn] at hresult
  exact ⟨t, hexec, hresult⟩

end Sys2Proof.Machine
end

section
/-! PROOFS. The encoder's emitting micro-operations (R132 to R134): the counter and the next bit as numbers, and what the ports show of
the entry offered. -/

namespace Sys2Proof.Machine

open Sys2Proof.Claims

variable {s : State} {e : EncRegs}

/-! ### The registers as numbers -/

/-- R20: the counter of bits left compared with a number of its range. -/
theorem remaining_eq_ofNat_iff {r : BitCount} {n : Nat} (hn : n < 64) : r = BitVec.ofNat 6 n ↔ r.toNat = n := by
  rw [← BitVec.toNat_inj, BitVec.toNat_ofNat, Nat.mod_eq_of_lt hn]

theorem remaining_eq_zero_iff {r : BitCount} : r = 0 ↔ r.toNat = 0 := remaining_eq_ofNat_iff (by decide)

theorem remaining_eq_one_iff {r : BitCount} : r = 1 ↔ r.toNat = 1 := remaining_eq_ofNat_iff (by decide)

/-- R25, R134: the counter steps down by one above 0. -/
theorem remaining_pred_eq_ofNat {r : BitCount} (h : 1 ≤ r.toNat) : r - 1 = BitVec.ofNat 6 (r.toNat - 1) := by
  rw [← remaining_pred_toNat h, BitVec.ofNat_toNat, BitVec.setWidth_eq]

/-- R20, R134: the next bit to send, in the arithmetic of R6. -/
theorem EncRegs.nextBit_eq_decide (e : EncRegs) :
    e.nextBit = decide (e.value.toNat / 2 ^ (e.remaining.toNat - 1) % 2 = 1) := Nat.testBit_eq_decide_div_mod_eq

/-- R64, R72: the stream entry of a data bit. -/
theorem Symbol.entry_ofBit (bit : Bool) : (Symbol.ofBit bit).entry = ⟨.mark, if bit then 1200 else 600⟩ := by
  cases bit <;> rfl

/-! ### What the ports show -/

theorem EncRegs.offer_emitHeader (h : e.state = .emitHeader) : e.offer = some ⟨Symbol.entry .hdr, e.remaining == 0⟩ := by
  rw [offer, h]

theorem EncRegs.offer_emitSpace (h : e.state = .emitSpace) : e.offer = some ⟨Symbol.entry .sp, false⟩ := by
  rw [offer, h]

theorem EncRegs.offer_emitMark (h : e.state = .emitMark) :
    e.offer = some ⟨Symbol.entry (Symbol.ofBit e.nextBit), e.remaining == 1⟩ := by
  rw [offer, h]

/-- R22, R50: in a step of the encoder without reset the ports show the entry that the registers offer. -/
theorem State.tx_of_offer (hr : s.ports.rst = false) {o : Offer} (ho : s.enc.offer = some o) :
    s.tx .enc = { valid := true, kind := o.entry.kind.bit, dur := o.entry.dur, last := o.last } := by
  rw [State.tx_of_enc hr (by decide), ho]
  rfl

/-- Settles O25: E.HEADER runs in `E_EMIT_HEADER` and offers its entry there; no bit is left when the counter is 0. -/
theorem eHeaderEmitsTheHeaderMark : Obligations.EHeaderEmitsTheHeaderMark := by
  unfold Obligations.EHeaderEmitsTheHeaderMark
  intro s hs
  have hrun : exec .eHeader s = .next s.encHeaderStep := execEHeader_next.2 ⟨hs, rfl⟩
  refine ⟨?_, fun hr => ?_⟩
  · rw [hrun, State.encHeaderStep, if_congr remaining_eq_zero_iff rfl rfl]
    rfl
  · rw [State.tx_of_offer hr (EncRegs.offer_emitHeader hs), beq_eq_decide, decide_eq_decide.2 remaining_eq_zero_iff]
    rfl

/-- Settles O26: E.SPACE runs in `E_EMIT_SPACE` and offers its entry there, where the invariant has a bit left. -/
theorem eSpaceEmitsTheSpace : Obligations.ESpaceEmitsTheSpace := by
  unfold Obligations.ESpaceEmitsTheSpace
  intro s hs
  exact ⟨execESpace_next.2 ⟨hs, rfl⟩, fun hr => State.tx_of_offer hr (EncRegs.offer_emitSpace hs), fun i => (i.pair (.inl hs)).1⟩

/-- Settles O27: E.MARK runs in `E_EMIT_MARK` with a bit left and offers the mark of the next bit there; the bit is the last one when the
counter is 1. -/
theorem eMarkEmitsTheNextBit : Obligations.EMarkEmitsTheNextBit := by
  unfold Obligations.EMarkEmitsTheNextBit
  intro s hs hrem d
  have hrun : exec .eMark s = .next s.encMarkStep :=
    execEMark_next.2 ⟨⟨hs, mt remaining_eq_zero_iff.1 (by omega)⟩, rfl⟩
  have hentry : (Symbol.ofBit s.enc.nextBit).entry = ⟨.mark, d⟩ := by
    simp [Symbol.entry_ofBit, EncRegs.nextBit_eq_decide, d]
  refine ⟨?_, fun hr => ?_⟩
  · rw [hrun, State.encMarkStep, State.emitSymbol, hentry, remaining_pred_eq_ofNat hrem, if_congr remaining_eq_one_iff rfl rfl]
    rfl
  · rw [State.tx_of_offer hr (EncRegs.offer_emitMark hs), hentry, beq_eq_decide, decide_eq_decide.2 remaining_eq_one_iff]
    rfl

end Sys2Proof.Machine
end

section
/-! PROOFS. The course of an emission (R136, R140): the steps it still takes, each step one fewer, and the entries it still emits, which
with those emitted stay the same. -/

namespace Sys2Proof.Machine

variable {s s' : State} {e : EncRegs}

/-! ### The steps of an emission -/

/-- R140: the steps that an emission still takes: the header mark, and two for each bit left. -/
def EncRegs.stepsLeft (e : EncRegs) : Nat :=
  match e.state with
  | .emitHeader => 1 + 2 * e.remaining.toNat
  | .emitSpace => 2 * e.remaining.toNat
  | .emitMark => 2 * e.remaining.toNat - 1
  | .idle | .done | .faultRange => 0

theorem EncRegs.stepsLeft_rest (h : e.busy = false) : e.stepsLeft = 0 := by
  cases hs : e.state <;> simp [EncRegs.busy, EState.emitting, hs] at h <;> simp [EncRegs.stepsLeft, hs]

/-- R140: an emission that goes on has a step left. -/
theorem EncInv.stepsLeft_pos (i : EncInv e) (h : e.busy = true) : 0 < e.stepsLeft := by
  cases hs : e.state <;> simp [EncRegs.busy, EState.emitting, hs] at h <;> simp only [EncRegs.stepsLeft, hs]
  case emitHeader => omega
  case emitSpace => have := i.pair (.inl hs); omega
  case emitMark => have := i.pair (.inr hs); omega

/-- R140: every step of an emission is one of the steps left. -/
theorem EmitCase.stepsLeft_succ (c : EmitCase s s') (i : EncInv s.enc) : s'.enc.stepsLeft + 1 = s.enc.stepsLeft := by
  cases c with
  | headerOnly hs hr => simp [EncRegs.stepsLeft, hs, hr]
  | header hs hr => simp [EncRegs.stepsLeft, hs, Nat.add_comm]
  | space hs =>
    have := i.pair (.inl hs)
    simp only [EncRegs.stepsLeft, hs, State.withEnc_enc]
    omega
  | lastMark hs hr => simp [EncRegs.stepsLeft, hs, hr]
  | mark hs hr =>
    have := i.pair (.inr hs)
    have hpred := remaining_pred_toNat (r := s.enc.remaining) (by omega)
    simp only [EncRegs.stepsLeft, hs, State.withEnc_enc, hpred]
    omega

/-- R132 to R134: after a step of an emission the frame goes on or is complete. -/
theorem EmitCase.busy_or_done (c : EmitCase s s') : s'.enc.busy = true ∨ s'.enc.state = .done := by
  cases c with
  | headerOnly => exact .inr rfl
  | lastMark => exact .inr rfl
  | _ => exact .inl rfl

/-- R25: a step keeps the encoder's invariant, at rest too. -/
theorem EncInv.emitStep (i : EncInv s.enc) : EncInv s.emitStep.enc := by
  cases h : s.enc.busy
  · rwa [State.emitStep_rest s h]
  · exact i.emitCase (State.emitStep_cases s h)

/-- R25: the run of an emission keeps the encoder's invariant. -/
theorem EncInv.emitRun (n : Nat) (i : EncInv s.enc) : EncInv (State.emitRun n s).enc :=
  State.emitRun_keeps (P := fun u => EncInv u.enc) (fun _ _ h _ c => h.emitCase c) n s i

/-- R140: a run of `n` steps takes `n` of the steps left. -/
theorem EncInv.stepsLeft_emitRun (n : Nat) (i : EncInv s.enc) :
    (State.emitRun n s).enc.stepsLeft = s.enc.stepsLeft - n := by
  induction n generalizing s with
  | zero => rfl
  | succ n ih =>
    cases h : s.enc.busy
    · rw [State.emitRun_rest _ s h, EncRegs.stepsLeft_rest h, Nat.zero_sub]
    · have c := State.emitStep_cases s h
      rw [State.emitRun_succ, ih (i.emitCase c), ← c.stepsLeft_succ i, Nat.add_sub_add_right]

/-- R140: an emission goes on for exactly the steps left. -/
theorem EncInv.emitRun_busy_iff (n : Nat) (i : EncInv s.enc) : (State.emitRun n s).enc.busy = true ↔ n < s.enc.stepsLeft := by
  rw [← Nat.sub_pos_iff_lt, ← i.stepsLeft_emitRun n]
  refine ⟨(i.emitRun n).stepsLeft_pos, fun h => ?_⟩
  exact Bool.eq_true_of_not_eq_false fun hb => h.ne' (EncRegs.stepsLeft_rest hb)

/-- R140: as many steps as are left bring an emission to rest. -/
theorem EncInv.emitRun_rests {n : Nat} (i : EncInv s.enc) (hn : s.enc.stepsLeft ≤ n) : (State.emitRun n s).enc.busy = false :=
  Bool.eq_false_of_not_eq_true fun h => ((i.emitRun_busy_iff n).1 h).not_ge hn

/-- R140: as many steps as are left bring an emission that goes on to `E_DONE`. -/
theorem EncInv.emitRun_done {n : Nat} (i : EncInv s.enc) (hb : s.enc.busy = true) (hn : s.enc.stepsLeft ≤ n) :
    (State.emitRun n s).enc.state = .done := by
  have hkeep := State.emitRun_keeps (P := fun u => u.enc.busy = true ∨ u.enc.state = .done)
    (fun _ _ _ _ c => c.busy_or_done) n s (.inl hb)
  exact hkeep.resolve_left (ne_true_of_eq_false (i.emitRun_rests hn))

/-! ### The machine's steps as the run of an emission -/

/-- R135: without a start the encoder's selected operation is one step of the emission, and at rest nothing. -/
theorem encNext_eq_emitStep (hp : s.ports.encStart = false) : encNext s = s.emitStep := by
  cases h : s.enc.busy
  · simp [encNext, h, hp, State.emitStep_rest s h]
  · rw [encNext, if_pos h]

/-- R135: a step of the encoder, without reset and without a start, is one step of the emission. -/
theorem EncInv.clock_enc (i : EncInv s.enc) (hr : s.ports.rst = false) (hp : s.ports.encStart = false) :
    clock .enc s = .next s.emitStep := by
  have hbit : ¬ (s.enc.state = .emitMark ∧ s.enc.remaining = 0) := fun ⟨hs, h0⟩ => by
    have hpair := i.pair (.inr hs)
    have hz := remaining_eq_zero_iff.1 h0
    omega
  rw [clock, if_neg (ne_true_of_eq_false hr), ← encNext_eq_emitStep hp]
  exact exec_encOp_next hbit

/-- R27: an emitting step writes no input port. -/
@[simp] theorem State.emitStep_ports (s : State) : s.emitStep.ports = s.ports := by
  cases h : s.enc.busy
  · rw [State.emitStep_rest s h]
  · obtain ⟨-, -, hports, -⟩ := (State.emitStep_cases s h).frame
    exact hports

/-- R130, R135: steps of the encoder, without reset and without a new start, are the run of the emission. -/
theorem EncInv.runMoves_enc (n : Nat) (i : EncInv s.enc) (hr : s.ports.rst = false) (hp : s.ports.encStart = false) :
    runMoves (List.replicate n .enc) s = .next (State.emitRun n s) := by
  induction n generalizing s with
  | zero => rfl
  | succ n ih =>
    rw [List.replicate_succ, runMoves, i.clock_enc hr hp, andThen_next, State.emitRun_succ]
    exact ih i.emitStep (by simpa using hr) (by simpa using hp)

/-! ### The request -/

/-- R131: an accepted request. -/
theorem EncRegs.start_accepted {n : BitCount} (hn : n.toNat ≤ 32) (v : Value) (k : Khz) :
    EncRegs.start v n k = { state := .emitHeader, value := v, remaining := n, freq := k } := by
  rw [EncRegs.start, if_neg (show ¬ n.toNat > Config.maxBits from hn.not_gt)]

/-- R157: a refused request. -/
theorem EncRegs.start_refused {n : BitCount} (hn : 32 < n.toNat) (v : Value) (k : Khz) :
    EncRegs.start v n k = { state := .faultRange, value := v, remaining := n, freq := k } := by
  rw [EncRegs.start, if_pos (show n.toNat > Config.maxBits from hn)]

/-- R140: an accepted request takes one step and two for each bit. -/
theorem EncRegs.stepsLeft_start {n : BitCount} (hn : n.toNat ≤ 32) (v : Value) (k : Khz) :
    (EncRegs.start v n k).stepsLeft = 1 + 2 * n.toNat := by
  rw [EncRegs.start_accepted hn]
  rfl

/-- R140: no request takes more than 65 steps. -/
theorem EncRegs.stepsLeft_start_le (v : Value) (n : BitCount) (k : Khz) : (EncRegs.start v n k).stepsLeft ≤ 65 := by
  rcases Nat.lt_or_ge 32 n.toNat with hn | hn
  · rw [EncRegs.start_refused hn]
    exact Nat.zero_le 65
  · rw [EncRegs.stepsLeft_start hn]
    omega

/-- Settles O43: the steps are the run of the emission that E.START begins, which has `1 + 2 * bits` steps to take. -/
theorem encodeTakesExactlyItsSteps : Obligations.EncodeTakesExactlyItsSteps := by
  unfold Obligations.EncodeTakesExactlyItsSteps
  intro s v n k hs hr hp
  have i : EncInv s.enc := hs ▸ EncInv.start v n k
  refine ⟨fun hn => ?_, fun hn => by rw [hs, EncRegs.start_refused hn]⟩
  have hleft : s.enc.stepsLeft = 1 + 2 * n.toNat := hs ▸ EncRegs.stepsLeft_start hn v k
  have hbusy : s.enc.busy = true := by rw [hs, EncRegs.start_accepted hn]; rfl
  refine ⟨fun j hj => ⟨_, i.runMoves_enc j hr hp, ?_⟩, _, i.runMoves_enc _ hr hp, i.emitRun_done hbusy hleft.le⟩
  exact (i.emitRun_busy_iff j).2 (by omega)

/-! ### The entries of an emission -/

/-- R136: the entries that an emission still emits, from the registers. -/
def EncRegs.frameLeft (e : EncRegs) : List StreamEntry :=
  match e.state with
  | .emitHeader => encodeFunction e.value e.remaining.toNat
  | .emitSpace => framePairs e.value e.remaining.toNat
  | .emitMark => (Symbol.ofBit e.nextBit).entry :: framePairs e.value (e.remaining.toNat - 1)
  | .idle | .done | .faultRange => []

theorem EncRegs.frameLeft_rest (h : e.busy = false) : e.frameLeft = [] := by
  cases hs : e.state <;> simp [EncRegs.busy, EState.emitting, hs] at h <;> simp [EncRegs.frameLeft, hs]

/-- R67: where a bit is left, its space comes first and then its mark. -/
theorem framePairs_remaining (e : EncRegs) (h : 1 ≤ e.remaining.toNat) : framePairs e.value e.remaining.toNat =
    Symbol.sp.entry :: (Symbol.ofBit e.nextBit).entry :: framePairs e.value (e.remaining.toNat - 1) := by
  obtain ⟨n, hn⟩ := Nat.exists_eq_add_of_le' h
  rw [EncRegs.nextBit, Symbol.entry_ofBit, hn, framePairs_succ, Nat.add_sub_cancel]
  rfl

/-- R50, R136: a step of an emission offers the first of the entries left and leaves the rest. -/
theorem EmitCase.frameLeft_eq (c : EmitCase s s') (i : EncInv s.enc) :
    s.enc.frameLeft = s.enc.offer.toList.map Offer.entry ++ s'.enc.frameLeft := by
  cases c with
  | headerOnly hs hr =>
    rw [EncRegs.offer_emitHeader hs, EncRegs.frameLeft, hs, hr]
    rfl
  | header hs hr =>
    rw [EncRegs.offer_emitHeader hs, EncRegs.frameLeft, hs]
    rfl
  | space hs =>
    rw [EncRegs.offer_emitSpace hs, EncRegs.frameLeft, hs]
    exact framePairs_remaining s.enc (i.pair (.inl hs)).1
  | lastMark hs hr =>
    rw [EncRegs.offer_emitMark hs, EncRegs.frameLeft, hs, hr]
    rfl
  | mark hs hr =>
    rw [EncRegs.offer_emitMark hs, EncRegs.frameLeft, hs, ← remaining_pred_toNat (i.pair (.inr hs)).1]
    rfl

/-- R136: the entries emitted and the entries left stay the same along the run of an emission. -/
theorem EncInv.emitRun_frameLeft (n : Nat) (i : EncInv s.enc) :
    (State.emitRun n s).txLog ++ (State.emitRun n s).enc.frameLeft = s.txLog ++ s.enc.frameLeft := by
  refine (State.emitRun_keeps
    (P := fun u => EncInv u.enc ∧ u.txLog ++ u.enc.frameLeft = s.txLog ++ s.enc.frameLeft) ?_ n s ⟨i, rfl⟩).2
  rintro u u' ⟨iu, hu⟩ - c
  refine ⟨iu.emitCase c, ?_⟩
  rw [c.txLog, List.append_assoc, ← c.frameLeft_eq iu, hu]

/-- R136: an accepted request emits the frame of the function. -/
theorem EncRegs.frameLeft_start {n : BitCount} (hn : n.toNat ≤ 32) (v : Value) (k : Khz) :
    (EncRegs.start v n k).frameLeft = encodeFunction v n.toNat := by
  rw [EncRegs.start_accepted hn]
  rfl

/-- R157: a refused request emits nothing. -/
theorem EncRegs.frameLeft_start_refused {n : BitCount} (hn : 32 < n.toNat) (v : Value) (k : Khz) :
    (EncRegs.start v n k).frameLeft = [] := by
  rw [EncRegs.start_refused hn]
  rfl

/-- R136: ENCODE appends to the stream the entries that its request has to emit. -/
theorem State.txLog_emitRun_start (s : State) (v : Value) (n : BitCount) (k : Khz) :
    (State.emitRun 65 (s.withEnc (.start v n k))).txLog = s.txLog ++ (EncRegs.start v n k).frameLeft := by
  have i : EncInv (s.withEnc (.start v n k)).enc := EncInv.start v n k
  have hrest := i.emitRun_rests (EncRegs.stepsLeft_start_le v n k)
  simpa [EncRegs.frameLeft_rest hrest] using i.emitRun_frameLeft 65

/-! ### The bits of the value that a frame carries -/

/-- R67, R141: the pairs of `n` bits depend on the bits below `n` alone. -/
theorem framePairs_congr {v w : Value} {n : Nat} (h : ∀ i < n, v.getLsbD i = w.getLsbD i) : framePairs v n = framePairs w n := by
  induction n with
  | zero => rfl
  | succ n ih => rw [framePairs_succ, framePairs_succ, h n n.lt_succ_self, ih fun i hi => h i (hi.trans n.lt_succ_self)]

/-- R141: the remainder modulo `2^n` has the bits of the value below `n`. -/
theorem getLsbD_mod_two_pow (v : Value) {n i : Nat} (hi : i < n) :
    (BitVec.ofNat 32 (v.toNat % 2 ^ n)).getLsbD i = v.getLsbD i := by
  by_cases h32 : i < 32
  · rw [BitVec.getLsbD_ofNat, Nat.testBit_mod_two_pow, BitVec.testBit_toNat]
    simp only [h32, hi, decide_true, Bool.true_and]
  · rw [BitVec.getLsbD_of_ge _ _ (by omega), BitVec.getLsbD_of_ge _ _ (by omega)]

/-- R141: the frame of the remainder is the frame of the value. -/
theorem encodeFunction_mod_two_pow (v : Value) (n : Nat) :
    encodeFunction (BitVec.ofNat 32 (v.toNat % 2 ^ n)) n = encodeFunction v n := by
  rw [encodeFunction_eq_cons, encodeFunction_eq_cons, framePairs_congr fun i hi => getLsbD_mod_two_pow v hi]

/-- Settles O44: each ENCODE appends the entries of its request, an accepted one the frame, which has the bits below `bits` only and no
carrier in it, a refused one nothing. -/
theorem frameIgnoresUpperBitsAndCarrier : Obligations.FrameIgnoresUpperBitsAndCarrier := by
  unfold Obligations.FrameIgnoresUpperBitsAndCarrier
  intro s v n k k' hb
  have hrun : ∀ (v : Value) (k : Khz), exec (.encode v n k) s = .next (State.emitRun 65 (s.withEnc (.start v n k))) :=
    fun _ _ => execEncode_next.2 (if_neg (ne_true_of_eq_false hb))
  refine ⟨_, _, hrun v k, hrun _ k', ?_⟩
  rw [State.txLog_emitRun_start, State.txLog_emitRun_start]
  rcases Nat.lt_or_ge 32 n.toNat with hn | hn
  · rw [EncRegs.frameLeft_start_refused hn, EncRegs.frameLeft_start_refused hn]
  · rw [EncRegs.frameLeft_start hn, EncRegs.frameLeft_start hn, encodeFunction_mod_two_pow]

end Sys2Proof.Machine
end

section
/-! PROOFS. The refused request (R157): E.START leaves the encoder in a terminal state, so the run of the emission has no step. -/

namespace Sys2Proof.Machine

variable {s : State}

/-- R157, R130: ENCODE of a refused request is E.START alone. -/
theorem exec_encode_refused {v : Value} {n : BitCount} {k : Khz} (hb : s.enc.busy = false) (hn : 32 < n.toNat) :
    exec (.encode v n k) s = .next (s.withEnc { state := .faultRange, value := v, remaining := n, freq := k }) := by
  refine execEncode_next.2 ?_
  rw [if_neg (ne_true_of_eq_false hb), EncRegs.start_refused hn]
  exact State.emitRun_rest _ _ rfl

/-- Settles O41: the refused request ends with E.START, and the flags are those of `E_FAULT_RANGE`. -/
theorem encodeRangeFaultEmitsNothing : Obligations.EncodeRangeFaultEmitsNothing := by
  unfold Obligations.EncodeRangeFaultEmitsNothing
  intro s v n k hb hn
  exact ⟨_, exec_encode_refused hb hn, rfl, rfl, rfl, rfl⟩

end Sys2Proof.Machine
end

section
/-! PROOFS. The words (R63, R72): each kind of word is put together from the fields that the decoder reads of it, and the words of a
stream that decode are those of the wire symbols. -/

namespace Sys2Proof

open Sys2Proof.Machine

/-! ### The command words -/

/-- R63: a DECODE word is its flag above its length. -/
theorem decWord_of_fields (w : BitVec (Config.lenWidth + 1)) :
    BitVec.cons (w.getLsbD Config.lenWidth) (w.extractLsb' 0 Config.lenWidth) = w := by
  apply BitVec.eq_of_getLsbD_eq
  intro j hj
  rw [decWord_getLsbD]
  by_cases h : j = Config.lenWidth
  · rw [if_pos h, h]
  · rw [if_neg h, BitVec.getLsbD_extractLsb', Nat.zero_add]
    simp [show j < Config.lenWidth by omega]

/-- R63: an ENCODE word is its frequency above its bit count above its value. -/
theorem encWord_of_fields (w : BitVec 46) : w.extractLsb' 38 8 ++ w.extractLsb' 32 6 ++ w.extractLsb' 0 32 = w := by
  apply BitVec.eq_of_getLsbD_eq
  intro j hj
  rw [encWord_getLsbD]
  simp only [BitVec.getLsbD_extractLsb']
  split
  · simp [*]
  · split
    · simp [*, show 32 + (j - 32) = j by omega]
    · simp [show j - 32 - 6 < 8 by omega, show 38 + (j - 32 - 6) = j by omega]

/-! ### The stream words -/

/-- The operation of a wire symbol (R60, R65). -/
def Machine.Symbol.instr : Symbol → Instr
  | .hdr => .hdr
  | .sp => .sp
  | .one => .one
  | .zero => .zero

/-- R72: the word of a wire symbol's operation is its packed entry. -/
theorem encodeWord_symbol (x : Symbol) : encodeWord x.instr = some (.streamEntry x.entry.pack) := by
  cases x <;> rfl

/-- R72: an entry is known by its kind bit and its duration. -/
theorem StreamEntry.eq_of_fields {e e' : StreamEntry} (hkind : decide (e.kind = .mark) = decide (e'.kind = .mark))
    (hdur : e.dur.toNat = e'.dur.toNat) : e = e' := by
  obtain ⟨k, d⟩ := e
  obtain ⟨k', d'⟩ := e'
  cases BitVec.eq_of_toNat_eq hdur
  cases k <;> cases k' <;> simp at hkind <;> rfl

/-- R72: a packed entry decodes to an operation exactly when it is a wire symbol's, and then to that symbol's operation. -/
theorem decodeStreamEntry_pack_eq_ok_iff {e : StreamEntry} {i : Instr} :
    decodeStreamEntry e.pack = .ok i ↔ ∃ x : Symbol, e = x.entry ∧ x.instr = i := by
  obtain ⟨hkind, hdur⟩ := pack_fields e
  constructor
  · intro h
    rw [decodeStreamEntry, hkind, hdur] at h
    split at h
    case h_1 hk hd => exact ⟨.hdr, StreamEntry.eq_of_fields hk hd, Except.ok.inj h⟩
    case h_2 hk hd => exact ⟨.sp, StreamEntry.eq_of_fields hk hd, Except.ok.inj h⟩
    case h_3 hk hd => exact ⟨.one, StreamEntry.eq_of_fields hk hd, Except.ok.inj h⟩
    case h_4 hk hd => exact ⟨.zero, StreamEntry.eq_of_fields hk hd, Except.ok.inj h⟩
    case h_5 => cases h
  · rintro ⟨x, he, rfl⟩
    rw [he]
    cases x <;> decide

/-- R72: a stream word decodes to an operation exactly when it is the packed entry of a wire symbol. -/
theorem decodeWord_streamEntry_eq_ok_iff {w : BitVec (Config.durWidth + 1)} {i : Instr} :
    decodeWord (.streamEntry w) = .ok i ↔ ∃ x : Symbol, w = x.entry.pack ∧ x.instr = i := by
  constructor
  · intro h
    have hw := pack_of_fields w
    rw [decodeWord, ← hw, decodeStreamEntry_pack_eq_ok_iff] at h
    obtain ⟨x, he, hi⟩ := h
    exact ⟨x, hw.symm.trans (congrArg StreamEntry.pack he), hi⟩
  · rintro ⟨x, rfl, hi⟩
    exact decodeStreamEntry_pack_eq_ok_iff.2 ⟨x, rfl, hi⟩

/-! ### Words and instructions -/

/-- R63, R72: the word of an instruction decodes to it. -/
theorem decodeWord_of_encodeWord {i : Instr} {w : HostWord} (h : encodeWord i = some w) : decodeWord w = .ok i := by
  cases i with
  | decode ih len => cases h; exact decodeWord_decode ih len
  | encode value bits khz => cases h; exact decodeWord_encode value bits khz
  | hdr => cases h; exact decodeWord_streamEntry_eq_ok_iff.2 ⟨.hdr, rfl, rfl⟩
  | sp => cases h; exact decodeWord_streamEntry_eq_ok_iff.2 ⟨.sp, rfl, rfl⟩
  | one => cases h; exact decodeWord_streamEntry_eq_ok_iff.2 ⟨.one, rfl, rfl⟩
  | zero => cases h; exact decodeWord_streamEntry_eq_ok_iff.2 ⟨.zero, rfl, rfl⟩
  | _ => cases h

/-- R63, R72: an instruction that a word decodes to has that word. -/
theorem encodeWord_of_decodeWord {i : Instr} {w : HostWord} (h : decodeWord w = .ok i) : encodeWord i = some w := by
  cases w with
  | decCommand w =>
    cases h
    exact congrArg (some ∘ HostWord.decCommand) (decWord_of_fields w)
  | encCommand w =>
    cases h
    exact congrArg (some ∘ HostWord.encCommand) (encWord_of_fields w)
  | streamEntry w =>
    obtain ⟨x, rfl, rfl⟩ := decodeWord_streamEntry_eq_ok_iff.1 h
    exact encodeWord_symbol x

/-- Settles O1: each direction is by the kind of the word: a command word is its fields, a stream word that of a wire symbol. -/
theorem wordsAndInstructionsAgree : Obligations.WordsAndInstructionsAgree := by
  unfold Obligations.WordsAndInstructionsAgree
  exact fun _ _ => ⟨decodeWord_of_encodeWord, encodeWord_of_decodeWord⟩

/-- Settles O2: each word is evaluated as it is written out. -/
theorem wordsOfTheFormatsDecode : Obligations.WordsOfTheFormatsDecode := by
  unfold Obligations.WordsOfTheFormatsDecode
  decide

/-- R72: the words of the wire symbols as numbers, the kind above the duration. -/
theorem symbol_pack_toNat (x : Symbol) : x.entry.pack.toNat =
    match x with
    | .hdr => 2 ^ Config.durWidth + 2400
    | .sp => 600
    | .one => 2 ^ Config.durWidth + 1200
    | .zero => 2 ^ Config.durWidth + 600 := by
  cases x <;> decide

/-- Settles O3: a stream word that decodes is a wire symbol's, and the symbols' words are the four numbers. -/
theorem onlyTheFourStreamWordsDecode : Obligations.OnlyTheFourStreamWordsDecode := by
  unfold Obligations.OnlyTheFourStreamWordsDecode
  intro w
  simp only [decodeWord_streamEntry_eq_ok_iff]
  constructor
  · rintro ⟨_, x, rfl, -⟩
    rw [symbol_pack_toNat]
    cases x <;> simp
  · have hw : ∀ x : Symbol, w.toNat = x.entry.pack.toNat → ∃ i, ∃ x : Symbol, w = x.entry.pack ∧ x.instr = i :=
      fun x h => ⟨x.instr, x, BitVec.eq_of_toNat_eq h, rfl⟩
    rintro (h | h | h | h)
    · exact hw .hdr (h.trans (symbol_pack_toNat .hdr).symm)
    · exact hw .sp (h.trans (symbol_pack_toNat .sp).symm)
    · exact hw .one (h.trans (symbol_pack_toNat .one).symm)
    · exact hw .zero (h.trans (symbol_pack_toNat .zero).symm)

end Sys2Proof
end

section
/-! PROOFS. The machine's invariant along every step (R115, R25): what each kind of step does from a state that meets it, the stops
included. -/

namespace Sys2Proof.Machine

open Sys2Proof.Claims

variable {s : State}

/-! ### Operations -/

/-- R25, R134: where a mark is to be sent a bit is left. -/
theorem EncInv.bitLeft (i : EncInv s.enc) : ¬ (s.enc.state = .emitMark ∧ s.enc.remaining = 0) := fun ⟨hs, h0⟩ => by
  obtain ⟨hlow, -⟩ := i.pair (.inr hs)
  have hz := remaining_eq_zero_iff.1 h0
  omega

/-- R115: after D.START and any number of steps of the scan. -/
theorem Inv.scanRun_start (inv : Inv s) (n : Nat) (ih : Bool) (len : Len) :
    Inv (s.withDec (DecRegs.scanRun s.tol s.buf n (.start ih len))) :=
  inv.withDec ((DecInv.start ih len).scanRun _ _ n)

/-- R25, R72: the run of an emission keeps the invariant. -/
theorem Inv.emitRun (inv : Inv s) (n : Nat) : Inv (State.emitRun n s) :=
  State.emitRun_keeps (fun _ _ h _ c => h.emitCase c) n s inv

/-- R100, R186: DECODE gives a next state, busy or not. -/
theorem Inv.exec_decode (inv : Inv s) (ih : Bool) (len : Len) : ∃ t, exec (.decode ih len) s = .next t ∧ Inv t := by
  refine ⟨_, execDecode_next.2 rfl, ?_⟩
  split
  · exact inv
  · exact inv.scanRun_start 67 ih len

/-- R130, R186: ENCODE gives a next state, busy or not. -/
theorem Inv.exec_encode (inv : Inv s) (v : Value) (n : BitCount) (k : Khz) : ∃ t, exec (.encode v n k) s = .next t ∧ Inv t := by
  refine ⟨_, execEncode_next.2 rfl, ?_⟩
  split
  · exact inv
  · exact (inv.withEnc (EncInv.start v n k)).emitRun 65

/-- R65: a wire symbol run on its own is its emission. -/
theorem exec_symbol (x : Symbol) (s : State) : exec x.instr s = .next (s.emitSymbol x) := by
  cases x <;> rfl

/-- R63, R72: what a word decodes to gives a next state. -/
theorem Inv.exec_of_decodeWord (inv : Inv s) {w : HostWord} {i : Instr} (h : decodeWord w = .ok i) :
    ∃ t, exec i s = .next t ∧ Inv t := by
  cases w with
  | decCommand w => cases h; exact inv.exec_decode _ _
  | encCommand w => cases h; exact inv.exec_encode _ _ _
  | streamEntry w =>
    obtain ⟨x, -, rfl⟩ := decodeWord_streamEntry_eq_ok_iff.1 h
    exact ⟨_, exec_symbol x s, inv.emitSymbol x⟩

/-! ### Steps -/

/-- R107, R135: a step of the units gives a next state, whichever of them move. -/
theorem Inv.clock (inv : Inv s) (m : Moves) : ∃ t, clock m s = .next t ∧ Inv t := by
  cases hr : s.ports.rst
  case true => exact ⟨_, clock_of_rst hr, inv.hardReset⟩
  have hdec : Inv (s.withDec (decNext s)) := inv.withDec inv.dec.decNext
  simp only [Machine.clock, hr, exec_decOp]
  cases m with
  | dec => exact ⟨_, rfl, hdec⟩
  | enc => exact ⟨_, exec_encOp_next inv.enc.bitLeft, inv.encNext⟩
  | both => exact ⟨_, exec_encOp_next (s := s.withDec (decNext s)) hdec.enc.bitLeft, hdec.encNext⟩

/-- R63, R180: a word gives a next state, or it is a stream word that is no symbol (log 9). -/
theorem Inv.runWord (inv : Inv s) (w : HostWord) :
    (∃ t, runWord w s = .next t ∧ Inv t) ∨ (runWord w s = .refused .undecodableWord ∧ ∃ v, w = .streamEntry v) := by
  cases hr : s.ports.rst
  case true => exact .inl ⟨_, runWord_of_rst hr, inv.hardReset⟩
  simp only [Machine.runWord, hr]
  cases hw : decodeWord w with
  | ok i => exact .inl (inv.exec_of_decodeWord hw)
  | error =>
    cases w with
    | streamEntry v => exact .inr ⟨rfl, v, rfl⟩
    | _ => cases hw

/-- R48, U2: new contents of the buffer give a next state, or a scan of at least one entry is going on (log 4). -/
theorem Inv.refill (inv : Inv s) {b : PulseBuffer} (hb : b.wf = true) :
    (∃ t, refill s b = .next t ∧ Inv t) ∨
      (refill s b = .refused .bufferContract ∧ s.dec.busy = true ∧ 0 < s.dec.len.toNat) := by
  by_cases h : s.dec.busy = true ∧ 0 < s.dec.len.toNat
  · exact .inr ⟨refill_of_scan h.1 h.2, h⟩
  · exact .inl ⟨_, if_neg h, inv.withBuf hb⟩

/-- R48, U2: the host's store of one entry likewise. -/
theorem Inv.store (inv : Inv s) (i : Len) (d : Dur) :
    (∃ t, act (.store i d) s = .next t ∧ Inv t) ∨
      (act (.store i d) s = .refused .bufferContract ∧ s.dec.busy = true ∧ i.toNat < s.dec.len.toNat) := by
  by_cases h : s.dec.busy = true ∧ i.toNat < s.dec.len.toNat
  · exact .inr ⟨if_pos h, h⟩
  · exact .inl ⟨_, if_neg h, inv.withBuf (PulseBuffer.write_wf _ _ _ inv.buf)⟩

/-- The host's write `a` breaks the contract of R48 in the state `s`. -/
def HostAction.BreaksContract (a : HostAction) (s : State) : Prop :=
  s.dec.busy = true ∧ 0 < s.dec.len.toNat ∧
    ((∃ i d, a = .store i d ∧ i.toNat < s.dec.len.toNat) ∨ (∃ es, a = .buf es) ∨ ∃ g, a = .capture g)

/-- Everything that an action of the host can do from a state that meets the invariant: it keeps it, or stops for the host's doing. -/
theorem Inv.act (inv : Inv s) (a : HostAction) :
    (∃ t, act a s = .next t ∧ Inv t) ∨
      (act a s = .refused .undecodableWord ∧ ∃ w, a = .word (.streamEntry w)) ∨
      (act a s = .refused .bufferContract ∧ a.BreaksContract s) := by
  cases a with
  | drive p m => exact .inl ((inv.withPorts p).clock m)
  | word w => exact (inv.runWord w).imp_right fun ⟨h, v, hv⟩ => .inl ⟨h, v, hv ▸ rfl⟩
  | store i d =>
    exact (inv.store i d).imp_right fun ⟨h, hb, hl⟩ => .inr ⟨h, hb, Nat.zero_lt_of_lt hl, .inl ⟨i, d, rfl, hl⟩⟩
  | buf es =>
    exact (inv.refill (PulseBuffer.ofList_wf es)).imp_right fun ⟨h, hb, hl⟩ => .inr ⟨h, hb, hl, .inr (.inl ⟨es, rfl⟩)⟩
  | capture g =>
    exact (inv.refill (PulseBuffer.ofList_wf _)).imp_right fun ⟨h, hb, hl⟩ => .inr ⟨h, hb, hl, .inr (.inr ⟨g, rfl⟩)⟩

/-- Everything that a step can do from a state that meets the invariant. -/
theorem Inv.step (inv : Inv s) :
    (∃ t, step s = .next t ∧ Inv t) ∨
      (step s = .refused .undecodableWord ∧ ∃ w rest, s.script = .word (.streamEntry w) :: rest) ∨
      (step s = .refused .bufferContract ∧ ∃ a rest, s.script = a :: rest ∧ a.BreaksContract s) := by
  cases hs : s.script with
  | nil =>
    rw [step_of_nil hs]
    exact .inl (inv.clock .both)
  | cons a rest =>
    rw [step_of_cons hs]
    obtain h | ⟨h, w, rfl⟩ | ⟨h, hc⟩ := (inv.withScript rest).act a
    · exact .inl h
    · exact .inr (.inl ⟨h, w, rest, rfl⟩)
    · exact .inr (.inr ⟨h, a, rest, rfl, hc⟩)

/-- Settles O50: a step that does not stop for the host's doing keeps the invariant. -/
theorem everyStepKeepsTheInvariant : Obligations.EveryStepKeepsTheInvariant := by
  unfold Obligations.EveryStepKeepsTheInvariant
  intro s t inv hstep
  obtain ⟨u, hu, hinv⟩ | ⟨h, -⟩ | ⟨h, -⟩ := inv.step
  · cases hu.symm.trans hstep
    exact hinv
  · cases h.symm.trans hstep
  · cases h.symm.trans hstep

/-- Settles O51: the two stops are those of the host's actions. -/
theorem stepStopsForTheHostOnly : Obligations.StepStopsForTheHostOnly := by
  unfold Obligations.StepStopsForTheHostOnly
  intro s inv
  obtain ⟨t, ht, -⟩ | h | ⟨h, a, rest, ha, hb, hl, hc⟩ := inv.step
  · exact .inl ⟨t, ht⟩
  · exact .inr (.inl h)
  · exact .inr (.inr ⟨h, hb, hl, a, rest, ha, hc⟩)

/-- R5: the block's tolerance is one of the range, whatever the open parameters are. -/
theorem tolerance_valid : Config.tolerance.Valid := Nat.lt_succ_of_le (Nat.le_add_right _ _)

/-- Settles O49: after reset the units are at rest with every register 0, and buffer and stream are empty. -/
theorem invariantHoldsAtReset : Obligations.InvariantHoldsAtReset := by
  unfold Obligations.InvariantHoldsAtReset
  exact ⟨tolerance_valid, PulseBuffer.nil_wf, DecInv.reset, EncInv.reset, List.forall_mem_nil _⟩

end Sys2Proof.Machine
end

section
/-! PROOFS. The frame of an ENCODE (R136, R51): entry by entry, as what the emission offers with its `tx_last`, and as what ENCODE
leaves. -/

namespace Sys2Proof.Machine

variable {s s' : State}

/-! ### The entries of a frame -/

@[simp] theorem framePairs_length (v : Value) (n : Nat) : (framePairs v n).length = 2 * n := by
  induction n with
  | zero => rfl
  | succ n ih => rw [framePairs_succ, List.length_cons, List.length_cons, ih, Nat.mul_succ]

@[simp] theorem encodeFunction_length (v : Value) (n : Nat) : (encodeFunction v n).length = 1 + 2 * n := by
  rw [encodeFunction_eq_cons, List.length_cons, framePairs_length, Nat.add_comm]

/-- R67: pair `k` of the frame, counted from the highest bit. -/
theorem framePairs_getElem? (v : Value) {n k : Nat} (hk : k < n) :
    (framePairs v n)[2 * k]? = some ⟨.space, 600⟩ ∧
      (framePairs v n)[2 * k + 1]? = some ⟨.mark, if v.getLsbD (n - 1 - k) then 1200 else 600⟩ := by
  induction n generalizing k with
  | zero => omega
  | succ n ih =>
    rw [framePairs_succ]
    cases k with
    | zero => exact ⟨rfl, rfl⟩
    | succ k =>
      rw [Nat.mul_succ, show n + 1 - 1 - (k + 1) = n - 1 - k by omega]
      exact ih (Nat.lt_of_succ_lt_succ hk)

/-- R67: a bit of the value, in the arithmetic of R6. -/
theorem getLsbD_eq_true_iff (v : Value) (j : Nat) : v.getLsbD j = true ↔ v.toNat / 2 ^ j % 2 = 1 := by
  rw [← BitVec.testBit_toNat, Nat.testBit_eq_decide_div_mod_eq, decide_eq_true_eq]

/-- Settles O42: the header mark stands before the pairs, which are counted from the highest bit. -/
theorem frameLayout : Obligations.FrameLayout := by
  unfold Obligations.FrameLayout
  intro v n
  refine ⟨encodeFunction_length v n, rfl, fun k hk => ?_⟩
  obtain ⟨hspace, hmark⟩ := framePairs_getElem? v hk
  rw [encodeFunction_eq_cons, Nat.add_comm 1, show 2 + 2 * k = 2 * k + 1 + 1 by omega, List.getElem?_cons_succ,
    List.getElem?_cons_succ, ← if_congr (getLsbD_eq_true_iff v (n - 1 - k)) rfl rfl]
  exact ⟨hspace, hmark⟩

/-! ### The run of an emission -/

/-- R27: an emitting step changes the encoder's registers and the stream only. -/
theorem EmitCase.eq_withEnc_txLog (c : EmitCase s s') : s' = { s with enc := s'.enc, txLog := s'.txLog } := by
  cases c <;> rfl

/-- R27: so does the run of an emission. -/
theorem State.emitRun_eq (n : Nat) (s : State) :
    State.emitRun n s = { s with enc := (State.emitRun n s).enc, txLog := (State.emitRun n s).txLog } := by
  refine State.emitRun_keeps (P := fun u => u = { s with enc := u.enc, txLog := u.txLog }) (fun u u' hu _ c => ?_) n s rfl
  have hc := c.eq_withEnc_txLog
  rw [hu] at hc
  exact hc

/-- R131: the run of an emission keeps the request's value and carrier. -/
theorem State.emitRun_request (n : Nat) (s : State) :
    (State.emitRun n s).enc.value = s.enc.value ∧ (State.emitRun n s).enc.freq = s.enc.freq := by
  refine State.emitRun_keeps (P := fun u => u.enc.value = s.enc.value ∧ u.enc.freq = s.enc.freq) ?_ n s ⟨rfl, rfl⟩
  rintro u u' ⟨hv, hf⟩ - c
  obtain ⟨-, -, -, -, -, -, hv', hf'⟩ := c.frame
  exact ⟨hv'.trans hv, hf'.trans hf⟩

/-- R19, R20: the encoder's registers are its state and the three fields of a request. -/
theorem EncRegs.eq_of_fields {e : EncRegs} {q : EState} {v : Value} {n : BitCount} {k : Khz} (hstate : e.state = q)
    (hvalue : e.value = v) (hrem : e.remaining = n) (hfreq : e.freq = k) :
    e = { state := q, value := v, remaining := n, freq := k } := by
  rw [← hstate, ← hvalue, ← hrem, ← hfreq]

/-- R130, R136: an accepted request ends in `E_DONE` with every bit sent. -/
theorem State.enc_emitRun_start {n : BitCount} (hn : n.toNat ≤ 32) (s : State) (v : Value) (k : Khz) :
    (State.emitRun 65 (s.withEnc (.start v n k))).enc = { state := .done, value := v, remaining := 0, freq := k } := by
  have i : EncInv (s.withEnc (.start v n k)).enc := EncInv.start v n k
  have hbusy : (s.withEnc (.start v n k)).enc.busy = true := by
    rw [State.withEnc_enc, EncRegs.start_accepted hn]
    rfl
  have hstate := i.emitRun_done hbusy (EncRegs.stepsLeft_start_le v n k)
  have hrem := remaining_eq_zero_iff.2 ((i.emitRun 65).done hstate)
  obtain ⟨hvalue, hfreq⟩ := State.emitRun_request 65 (s.withEnc (.start v n k))
  exact EncRegs.eq_of_fields hstate hvalue hrem hfreq

/-- R130, R136: what an accepted ENCODE leaves: the frame appended, the request in the encoder's registers, the rest as it was. -/
def State.encoded (s : State) (v : Value) (n : BitCount) (k : Khz) : State :=
  { s with
    txLog := s.txLog ++ encodeFunction v n.toNat
    enc := { state := .done, value := v, remaining := 0, freq := k } }

/-- R130, R136: an accepted ENCODE of an encoder at rest. -/
theorem exec_encode_accepted {v : Value} {n : BitCount} {k : Khz} (hb : s.enc.busy = false) (hn : n.toNat ≤ 32) :
    exec (.encode v n k) s = .next (s.encoded v n k) := by
  refine execEncode_next.2 ?_
  rw [if_neg (ne_true_of_eq_false hb), State.emitRun_eq, State.enc_emitRun_start hn, State.txLog_emitRun_start,
    EncRegs.frameLeft_start hn]
  rfl

/-! ### What is offered -/

/-- R136: the entries that ENCODE offers are those that its request has to emit. -/
theorem State.runOffers_start_entry (s : State) (v : Value) (n : BitCount) (k : Khz) :
    (State.runOffers 65 (s.withEnc (.start v n k))).map Offer.entry = (EncRegs.start v n k).frameLeft :=
  List.append_cancel_left ((State.emitRun_txLog 65 _).symm.trans (State.txLog_emitRun_start s v n k))

/-- R22: `tx_last` of the steps that an emission still takes: 1 with the last of them. -/
def lastFlags : Nat → List Bool
  | 0 => []
  | k + 1 => List.replicate k false ++ [true]

/-- R22: the flag of the next step comes before those of the steps after it. -/
theorem lastFlags_succ (k : Nat) : lastFlags (k + 1) = decide (k + 1 = 1) :: lastFlags k := by
  cases k <;> simp [lastFlags, List.replicate_succ]

/-- R22, R50: a step of an emission shows `tx_last` = 1 exactly when it is the only one left. -/
theorem EncRegs.offer_last {e : EncRegs} (hb : e.busy = true) :
    e.offer.toList.map Offer.last = [decide (e.stepsLeft = 1)] := by
  have hzero := remaining_eq_zero_iff (r := e.remaining)
  have hone := remaining_eq_one_iff (r := e.remaining)
  cases hs : e.state <;> simp [EncRegs.busy, EState.emitting, hs] at hb <;> simp only [EncRegs.offer, EncRegs.stepsLeft, hs]
  case emitHeader => exact congrArg ([·]) (decide_eq_decide.2 (hzero.trans (by omega)))
  case emitSpace => exact congrArg ([·]) (decide_eq_false (by omega)).symm
  case emitMark => exact congrArg ([·]) (decide_eq_decide.2 (hone.trans (by omega)))

/-- R22, R50: the flags that the run of an emission shows, when it has room for every step left. -/
theorem EncInv.runOffers_last {n : Nat} (i : EncInv s.enc) (hn : s.enc.stepsLeft ≤ n) :
    (State.runOffers n s).map Offer.last = lastFlags s.enc.stepsLeft := by
  induction n generalizing s with
  | zero => rw [Nat.le_zero.1 hn]; rfl
  | succ n ih =>
    cases hb : s.enc.busy
    · rw [EncRegs.stepsLeft_rest hb, State.runOffers, hb]
      rfl
    · have c := State.emitStep_cases s hb
      have hleft := c.stepsLeft_succ i
      rw [State.runOffers_succ, List.map_append, EncRegs.offer_last hb, ih (i.emitCase c) (by omega), ← hleft, lastFlags_succ]
      rfl

/-- R22: the flags that an accepted ENCODE shows. -/
theorem State.runOffers_start_last {n : BitCount} (hn : n.toNat ≤ 32) (s : State) (v : Value) (k : Khz) :
    (State.runOffers 65 (s.withEnc (.start v n k))).map Offer.last = List.replicate (2 * n.toNat) false ++ [true] := by
  have i : EncInv (s.withEnc (.start v n k)).enc := EncInv.start v n k
  rw [i.runOffers_last (EncRegs.stepsLeft_start_le v n k), State.withEnc_enc, EncRegs.stepsLeft_start hn, Nat.add_comm, lastFlags]

/-- Settles O40: the frame is what the request has to emit, and the last step of the emission is the one with `tx_last`. -/
theorem encodeEmitsTheFrame : Obligations.EncodeEmitsTheFrame := by
  unfold Obligations.EncodeEmitsTheFrame
  intro s v n k hb hn
  have hoff : s.offersOf (.encode v n k) = State.runOffers 65 (s.withEnc (.start v n k)) := if_neg (ne_true_of_eq_false hb)
  refine ⟨exec_encode_accepted hb hn, ?_, ?_⟩
  · rw [hoff, State.runOffers_start_entry, EncRegs.frameLeft_start hn]
  · rw [hoff, State.runOffers_start_last hn]

end Sys2Proof.Machine
end

section
/-! PROOFS. The host's writes of the buffer (R41, R48, R75), and the round trip through the machine (R139). -/

namespace Sys2Proof.Machine

variable {s : State}

/-! ### The last frame -/

/-- R51: no entry of the pairs is a header mark. -/
theorem ne_hdr_of_mem_framePairs {v : Value} {n : Nat} {e : StreamEntry} (h : e ∈ framePairs v n) : e ≠ Symbol.entry .hdr := by
  obtain ⟨k, -, hk⟩ := List.mem_flatMap.1 h
  rw [framePair, List.mem_pair] at hk
  obtain rfl | rfl := hk
  · decide
  · cases v.getLsbD (n - 1 - k) <;> decide

/-- R51, R75: from a header mark on, with none after it, is the last frame. -/
theorem lastFrame_append {rest : List StreamEntry} (h : ∀ e ∈ rest, e ≠ Symbol.entry .hdr) (log : List StreamEntry) :
    lastFrame (log ++ Symbol.entry .hdr :: rest) = Symbol.entry .hdr :: rest := by
  rw [lastFrame, List.foldl_append, List.foldl_cons, if_pos rfl]
  induction rest using List.reverseRecOn with
  | nil => rfl
  | append_singleton rest e ih =>
    rw [List.forall_mem_append] at h
    rw [List.foldl_append, ih h.1, List.foldl_cons, List.foldl_nil, if_neg (h.2 e (List.mem_singleton_self e))]
    rfl

/-- R75: a frame of an ENCODE that stands last on the stream is the last frame. -/
theorem lastFrame_encodeFunction (log : List StreamEntry) (v : Value) (n : Nat) :
    lastFrame (log ++ encodeFunction v n) = encodeFunction v n :=
  lastFrame_append (fun _ => ne_hdr_of_mem_framePairs) log

/-! ### The host's actions -/

/-- R48: a store is allowed at rest, and beyond the sequence that is scanned. -/
theorem act_store_allowed {i : Len} (h : s.dec.busy = false ∨ s.dec.len.toNat ≤ i.toNat) (d : Dur) :
    act (.store i d) s = .next (s.withBuf (s.buf.write i.toNat d)) := by
  refine if_neg fun ⟨hb, hl⟩ => ?_
  obtain h | h := h
  · exact ne_true_of_eq_false h hb
  · exact h.not_gt hl

/-- R41: the host's store is read back. -/
theorem PulseBuffer.read_write_same {b : PulseBuffer} (h : b.wf = true) (i : Nat) (d : Dur) : (b.write i d).read i = d :=
  PulseBuffer.read_of_entry? (by rw [PulseBuffer.entry?_write b i i d h, if_pos rfl])

/-- R41: the host's store leaves the other entries. -/
theorem PulseBuffer.entry?_write_of_ne {b : PulseBuffer} (h : b.wf = true) {i a : Nat} (ha : a ≠ i) (d : Dur) :
    (b.write i d).entry? a = b.entry? a := by
  rw [PulseBuffer.entry?_write b i a d h, if_neg ha]

/-- R42: what an index reads as is by the entry listed for it. -/
theorem PulseBuffer.read_congr {b b' : PulseBuffer} {a : Nat} (h : b.entry? a = b'.entry? a) : b.read a = b'.read a := by
  rw [PulseBuffer.read, PulseBuffer.read, h]

/-- R75: CAPTURE puts the gap and the durations of the frame into the buffer. -/
theorem act_capture_frame {log : List StreamEntry} {v : Value} {n : Nat} (h : s.dec.busy = false ∨ s.dec.len.toNat = 0)
    (hlog : s.txLog = log ++ encodeFunction v n) (g : Dur) :
    act (.capture g) s = .next (s.withBuf (.ofList (g :: (encodeFunction v n).map StreamEntry.dur))) := by
  rw [act, hlog, lastFrame_encodeFunction]
  exact refill_of_quiet h

/-- R8, R43: the buffer that CAPTURE leaves, as a sequence. -/
theorem sequence_captured (g : Dur) (v : Value) (n : Nat) :
    (PulseBuffer.ofList (g :: (encodeFunction v n).map StreamEntry.dur)).sequence (2 * n + 2) =
      g :: (encodeFunction v n).map StreamEntry.dur := by
  have hlen : (g :: (encodeFunction v n).map StreamEntry.dur).length = 2 * n + 2 := by
    rw [List.length_cons, List.length_map, encodeFunction_length]
    omega
  rw [← hlen]
  exact PulseBuffer.sequence_ofList _

/-- Settles O58: the store is carried out or refused by the contract of R48, and the buffer's laws give what is read after it. -/
theorem hostStoreWritesOneEntry : Obligations.HostStoreWritesOneEntry := by
  unfold Obligations.HostStoreWritesOneEntry
  intro s i d rest hwf hs
  rw [step_of_cons hs]
  refine ⟨fun h => ⟨_, act_store_allowed (s := s.withScript rest) h d, rfl, PulseBuffer.read_write_same hwf _ _, fun a ha => ?_⟩,
    fun hb hl => if_pos ⟨hb, hl⟩⟩
  have he := PulseBuffer.entry?_write_of_ne hwf ha d
  exact ⟨PulseBuffer.read_congr he, he⟩

/-- Settles O59: BUF is carried out or refused by the contract of R48, and the buffer made from a sequence holds it. -/
theorem bufLineFillsTheBuffer : Obligations.BufLineFillsTheBuffer := by
  unfold Obligations.BufLineFillsTheBuffer
  intro s es rest hs
  rw [step_of_cons hs]
  exact ⟨fun h => ⟨_, refill_of_quiet h, rfl, PulseBuffer.sequence_ofList es, PulseBuffer.entry?_ofList es⟩,
    fun hb hl => refill_of_scan hb hl⟩

/-- Settles O60: CAPTURE is carried out or refused by the contract of R48, and takes the frame that stands last on the stream. -/
theorem captureTakesTheLastFrame : Obligations.CaptureTakesTheLastFrame := by
  unfold Obligations.CaptureTakesTheLastFrame
  intro s g rest log v n hs hlog
  rw [step_of_cons hs]
  exact ⟨fun h => ⟨_, act_capture_frame (s := s.withScript rest) h hlog g, rfl, sequence_captured g v n⟩,
    fun hb hl => refill_of_scan hb hl⟩

/-- Settles O46: ENCODE appends the frame and leaves the decoder, CAPTURE takes that frame, and DECODE of it gives the request back. -/
theorem loopBackReturnsTheRequest : Obligations.LoopBackReturnsTheRequest := by
  unfold Obligations.LoopBackReturnsTheRequest
  intro s v n k g ih hdec henc hn htol
  have hcap := act_capture_frame (s := s.encoded v n k) (.inl hdec) rfl g
  obtain ⟨t, ht, hresult⟩ := decodeOfEncodeIsTheRequest (State.withBuf (s.encoded v n k) _) v n.toNat g ih hdec hn htol
    (sequence_captured g v n.toNat)
  exact ⟨_, _, t, exec_encode_accepted henc hn, hcap, ht, hresult⟩

end Sys2Proof.Machine
end

section
/-! PROOFS. The step of the machine by the host's next action (R107, R135, R180), and the selected micro-operation as the only one of
its unit that runs. -/

namespace Sys2Proof.Machine

open Sys2Proof.Claims

variable {s t : State} {i : Instr}

/-! ### Words -/

/-- R63: a word given without reset is carried out by exec of the instruction it decodes to. -/
theorem runWord_of_decodeWord (hr : s.ports.rst = false) {w : HostWord} (hw : decodeWord w = .ok i) : runWord w s = exec i s := by
  simp [runWord, hr, hw]

/-- Settles O4: the host's word is run at the state without it. -/
theorem stepRunsTheDecodedWord : Obligations.StepRunsTheDecodedWord := by
  unfold Obligations.StepRunsTheDecodedWord
  intro s w rest i hs hr hw
  rw [step_of_cons hs]
  exact runWord_of_decodeWord (s := s.withScript rest) hr hw

/-- Log 13: a table word that decodes is the word of some port that decodes. -/
theorem decodeTableWord_eq_some_iff {nbits w : Nat} :
    decodeTableWord nbits w = some i ↔ ∃ hw, tableWord nbits w = some hw ∧ decodeWord hw = .ok i := by
  unfold decodeTableWord
  cases tableWord nbits w with
  | none => simp
  | some hw => cases h : decodeWord hw <;> simp [h]

/-- Settles O5: the word placed is the host's next action, and no reset is asked for. -/
theorem fetchedWordRunsNext : Obligations.FetchedWordRunsNext := by
  unfold Obligations.FetchedWordRunsNext
  intro s nbits w i h
  obtain ⟨hw, htable, hdecode⟩ := decodeTableWord_eq_some_iff.1 h
  rw [State.withFetchWord, htable]
  exact stepRunsTheDecodedWord (s.withWord hw) hw s.script i rfl rfl hdecode

/-! ### Steps of the units -/

theorem clock_dec (hr : s.ports.rst = false) : clock .dec s = exec s.decOp s := if_neg (ne_true_of_eq_false hr)

theorem clock_enc (hr : s.ports.rst = false) : clock .enc s = exec s.encOp s := if_neg (ne_true_of_eq_false hr)

theorem clock_both (hr : s.ports.rst = false) : clock .both s = andThen (exec s.decOp s) fun u => exec u.encOp u :=
  if_neg (ne_true_of_eq_false hr)

/-- Settles O6: with no action, or after the ports are driven, the step is that of the units which move. -/
theorem stepRunsTheSelectedOperations : Obligations.StepRunsTheSelectedOperations := by
  unfold Obligations.StepRunsTheSelectedOperations
  intro s
  refine ⟨fun hs hr => (step_of_nil hs).trans (clock_both hr), ?_⟩
  intro p rest hr v
  refine ⟨fun hs => ?_, fun hs => ?_, fun hs => ?_⟩
  · exact (step_of_cons hs).trans (clock_both (s := v) hr)
  · exact (step_of_cons hs).trans (clock_dec (s := v) hr)
  · exact (step_of_cons hs).trans (clock_enc (s := v) hr)

/-- Settles O56: a step with `rst` = 1 is the hardware reset, in which the ports of both units show nothing. -/
theorem resetStepDoesNothingElse : Obligations.ResetStepDoesNothingElse := by
  unfold Obligations.ResetStepDoesNothingElse
  intro s m p w rest r
  refine ⟨fun hr hs => ⟨?_, State.bufAddr_of_rst hr, State.tx_of_rst hr⟩, fun hr hs => ⟨?_, ?_⟩,
    fun hr hs => ⟨(step_of_nil hs).trans (clock_of_rst hr), State.bufAddr_of_rst hr, State.tx_of_rst hr⟩⟩
  · exact (step_of_cons hs).trans (clock_of_rst (s := (s.withScript rest).withPorts p) hr)
  · exact (step_of_cons hs).trans (runWord_of_rst (s := s.withScript rest) hr)
  · simp [State.offers, hs, hr]

/-! ### The selected operation alone -/

/-- R107: a micro-operation of the decoder that is not the selected one does not run: where its guard holds it is selected. -/
theorem exec_decMicroOp_refused (hi : i ∈ decMicroOps) (hne : i ≠ s.decOp) : exec i s = .refused .notSelected := by
  cases i with
  | dStart =>
    refine if_neg fun h => hne ?_
    simp only [Bool.and_eq_true, Bool.not_eq_true'] at h
    rw [State.decOp_rest h.1, if_pos h.2]
  | dHeader => exact if_neg fun h => hne (by rw [State.decOp, h, selectDec])
  | dSpace => exact if_neg fun ⟨h, hl⟩ => hne (by rw [State.decOp, h, selectDec, if_pos hl])
  | dMark => exact if_neg fun h => hne (by rw [State.decOp, h, selectDec])
  | dFinish => exact if_neg fun ⟨h, hl⟩ => hne (by rw [State.decOp, h, selectDec, if_neg hl.not_gt])
  | dHold =>
    refine if_neg fun h => hne ?_
    simp only [Bool.and_eq_true, Bool.not_eq_true'] at h
    rw [State.decOp_rest h.1, if_neg (ne_true_of_eq_false h.2)]
  | _ => simp [decMicroOps] at hi

/-- R135: an encoder at rest runs E.START or E.HOLD, by the start input. -/
theorem State.encOp_rest (h : s.enc.busy = false) : s.encOp = if s.ports.encStart then .eStart else .eHold := by
  cases hs : s.enc.state <;> simp [EncRegs.busy, EState.emitting, hs] at h <;> simp [State.encOp, selectEnc, hs]

/-- R135: the same for the encoder. -/
theorem exec_encMicroOp_refused (hi : i ∈ encMicroOps) (hne : i ≠ s.encOp) : exec i s = .refused .notSelected := by
  cases i with
  | eStart =>
    refine if_neg fun h => hne ?_
    simp only [Bool.and_eq_true, Bool.not_eq_true'] at h
    rw [State.encOp_rest h.1, if_pos h.2]
  | eHeader => exact if_neg fun h => hne (by rw [State.encOp, h, selectEnc])
  | eSpace => exact if_neg fun h => hne (by rw [State.encOp, h, selectEnc])
  | eMark => exact if_neg fun h => hne (by rw [State.encOp, h, selectEnc])
  | eHold =>
    refine if_neg fun h => hne ?_
    simp only [Bool.and_eq_true, Bool.not_eq_true'] at h
    rw [State.encOp_rest h.1, if_neg (ne_true_of_eq_false h.2)]
  | _ => simp [encMicroOps] at hi

/-- R107: a micro-operation of the decoder that gives a next state is the selected one. -/
theorem exec_decMicroOp_next (hi : i ∈ decMicroOps) (h : exec i s = .next t) : i = s.decOp ∧ t = s.withDec (decNext s) := by
  have hop : i = s.decOp := by_contra fun hne => by cases (exec_decMicroOp_refused hi hne).symm.trans h
  subst hop
  exact ⟨rfl, Host.Outcome.next.inj (h.symm.trans (exec_decOp s))⟩

/-- R135: a micro-operation of the encoder that gives a next state is the selected one. -/
theorem exec_encMicroOp_next (hi : i ∈ encMicroOps) (h : exec i s = .next t) : i = s.encOp ∧ t = encNext s := by
  have hop : i = s.encOp := by_contra fun hne => by cases (exec_encMicroOp_refused hi hne).symm.trans h
  subst hop
  rw [exec_encOp] at h
  split at h
  · cases h
  · exact ⟨rfl, (Host.Outcome.next.inj h).symm⟩

/-- Settles O9: the other operations are refused by their guards, and E.MARK without a bit is where the selected one stops. -/
theorem onlyTheSelectedOperationRuns : Obligations.OnlyTheSelectedOperationRuns := by
  unfold Obligations.OnlyTheSelectedOperationRuns
  intro s
  refine ⟨fun i hi hne => exec_decMicroOp_refused hi hne, fun i hi hne => exec_encMicroOp_refused hi hne, fun hs h0 => ?_⟩
  have hop : s.encOp = .eMark := by rw [State.encOp, hs, selectEnc]
  rw [← hop]
  exact exec_encOp_fault ⟨hs, remaining_eq_zero_iff.2 h0⟩

end Sys2Proof.Machine
end

section
/-! PROOFS. What the decoder's operations write (R27, R156) and which entry a step of the scan reads (R44, R49). -/

namespace Sys2Proof.Machine

open Sys2Proof.Claims

variable {s : State} {t : Tolerance} {b b' : PulseBuffer} {d d' : DecRegs}

/-! ### What a step writes -/

/-- R27: D.HEADER writes the state and the expected duration at most. -/
theorem DecRegs.headerStep_eq (t : Tolerance) (b : PulseBuffer) (d : DecRegs) : d.headerStep t b =
    { d with state := (d.headerStep t b).state, rExpected := (d.headerStep t b).rExpected } := by
  unfold headerStep
  split
  · rfl
  · split <;> rfl

/-- R27: D.SPACE writes the counter of entries besides. -/
theorem DecRegs.spaceStep_eq (t : Tolerance) (b : PulseBuffer) (d : DecRegs) : d.spaceStep t b =
    { d with
      state := (d.spaceStep t b).state, rExpected := (d.spaceStep t b).rExpected, offset := (d.spaceStep t b).offset } := by
  unfold spaceStep
  split <;> rfl

/-- R27: D.MARK writes the counter of entries and the value besides. -/
theorem DecRegs.markStep_eq (t : Tolerance) (b : PulseBuffer) (d : DecRegs) : d.markStep t b =
    { d with
      state := (d.markStep t b).state, rExpected := (d.markStep t b).rExpected, offset := (d.markStep t b).offset
      value := (d.markStep t b).value } := by
  unfold markStep
  split
  · rfl
  · split
    · rfl
    · split <;> rfl

/-- Settles O53: each operation's row is what its step writes; D.START's row has no clause. -/
theorem decoderAccessTable : Obligations.DecoderAccessTable := by
  unfold Obligations.DecoderAccessTable
  intro s t i hi h
  cases i with
  | dStart => simp
  | dHeader =>
    obtain ⟨-, rfl⟩ := execDHeader_next.1 h
    rw [State.withDec_dec, DecRegs.headerStep_eq]
    simp
  | dSpace =>
    obtain ⟨-, rfl⟩ := execDSpace_next.1 h
    rw [State.withDec_dec, DecRegs.spaceStep_eq]
    simp
  | dMark =>
    obtain ⟨-, rfl⟩ := execDMark_next.1 h
    rw [State.withDec_dec, DecRegs.markStep_eq]
    simp
  | dFinish =>
    obtain ⟨-, rfl⟩ := execDFinish_next.1 h
    simp [DecRegs.finishStep]
  | dHold =>
    obtain ⟨-, rfl⟩ := execDHold_next.1 h
    simp
  | _ => simp [decMicroOps] at hi

/-- R10, R27: a decoder operation writes the decoder's registers and nothing else. -/
theorem exec_decOperation_eq {i : Instr} {u : State} (hi : i ∈ decMicroOps ∨ ∃ ih len, i = .decode ih len)
    (h : exec i s = .next u) : u = s.withDec u.dec := by
  obtain hi | ⟨ih, len, rfl⟩ := hi
  · obtain ⟨-, rfl⟩ := exec_decMicroOp_next hi h
    rfl
  · obtain rfl := execDecode_next.1 h
    split <;> rfl

/-- Settles O52: what is not the decoder's registers is as it was. -/
theorem decoderOperationsFrame : Obligations.DecoderOperationsFrame := by
  unfold Obligations.DecoderOperationsFrame
  intro s t i hi h
  rw [exec_decOperation_eq hi h]
  exact ⟨rfl, rfl, fun _ => ⟨rfl, rfl⟩, rfl, rfl, rfl, rfl⟩

/-! ### Failures -/

/-- R102: how D.HEADER fails. -/
theorem DecRegs.headerStep_failure : (d.headerStep t b).done = true →
    d.headerStep t b = d.raise .boundsFault ∨ d.headerStep t b = d.raise .headerMarkError := by
  unfold headerStep
  split
  · exact fun _ => .inl rfl
  · split
    · exact nofun
    · exact fun _ => .inr rfl

/-- R103: how D.SPACE fails. -/
theorem DecRegs.spaceStep_failure : (d.spaceStep t b).done = true → d.spaceStep t b = d.raise .dataSpaceError := by
  unfold spaceStep
  split
  · exact nofun
  · exact fun _ => rfl

/-- R104: how D.MARK fails. -/
theorem DecRegs.markStep_failure : (d.markStep t b).done = true → d.markStep t b = d.raise .boundsFault ∨
    d.markStep t b = d.raise .dataMarkError ∨ d.markStep t b = d.raise .capacityFault := by
  unfold markStep
  split
  · exact fun _ => .inl rfl
  · split
    · exact fun _ => .inr (.inl rfl)
    · split
      · exact fun _ => .inr (.inr rfl)
      · exact nofun

/-- Settles O21: a step that ends a scan without success is `raise` of one of its operation's failures, which writes the failure's state
and expected duration. -/
theorem raiseWritesStateAndExpectedOnly : Obligations.RaiseWritesStateAndExpectedOnly := by
  unfold Obligations.RaiseWritesStateAndExpectedOnly
  intro s t i hi h hdone
  cases i with
  | dHeader =>
    obtain ⟨-, rfl⟩ := execDHeader_next.1 h
    obtain hx | hx := DecRegs.headerStep_failure hdone <;> rw [hx]
    · exact ⟨rfl, rfl, by simp [DecFailure.terminal, DState.statusCode, DecFailure.expected]⟩
    · exact ⟨rfl, rfl, .inl ⟨rfl, rfl, rfl⟩⟩
  | dSpace =>
    obtain ⟨-, rfl⟩ := execDSpace_next.1 h
    rw [DecRegs.spaceStep_failure hdone]
    exact ⟨rfl, rfl, .inr (.inl ⟨rfl, rfl, rfl⟩)⟩
  | dMark =>
    obtain ⟨-, rfl⟩ := execDMark_next.1 h
    obtain hx | hx | hx := DecRegs.markStep_failure hdone <;> rw [hx]
    · exact ⟨rfl, rfl, .inr (.inr (.inr (.inl ⟨by decide, rfl, rfl⟩)))⟩
    · exact ⟨rfl, rfl, .inr (.inr (.inl ⟨rfl, rfl, rfl⟩))⟩
    · exact ⟨rfl, rfl, .inr (.inr (.inr (.inr ⟨rfl, rfl, rfl⟩)))⟩
  | _ => simp at hi

/-! ### The entry that a step reads -/

/-- R49: the entry that a step reads lies in the sequence; it is the header mark, which is read only when the header is checked, or one
from index 2 on. -/
theorem DecInv.bufAddr_entry (i : DecInv d) (h : d.bufAddr ≠ 0) : d.bufAddr.toNat < d.len.toNat ∧
    ((d.bufAddr.toNat = 1 ∧ d.ih = false) ∨ 2 ≤ d.bufAddr.toNat) := by
  have hone : (1 : Len).toNat = 1 := mod_lenWidth_1
  have hlow := i.offsetLow
  cases hs : d.state with
  | expectHeader =>
    obtain ⟨-, -, hih⟩ := i.header hs
    simp only [DecRegs.bufAddr, hs] at h ⊢
    split at h
    · exact absurd rfl h
    · rw [if_neg ‹_›, hone]
      exact ⟨by omega, .inl ⟨rfl, hih⟩⟩
  | expectSpace =>
    simp only [DecRegs.bufAddr, hs] at h ⊢
    split at h
    · rw [if_pos ‹_›]
      exact ⟨‹_›, .inr (hlow (by simp [hs]))⟩
    · exact absurd rfl h
  | expectMark =>
    simp only [DecRegs.bufAddr, hs] at h ⊢
    split at h
    · rw [if_pos ‹_›]
      exact ⟨‹_›, .inr (hlow (by simp [hs]))⟩
    · exact absurd rfl h
  | _ => exact absurd (DecRegs.bufAddr_rest (by rw [DecRegs.busy, hs]; rfl)) h

/-- R49: where a scan has an entry left, the entry at the offset is the one read. -/
theorem DecInv.bufAddr_offset (i : DecInv d) (hs : d.state = .expectSpace ∨ d.state = .expectMark)
    (hl : d.offset.toNat < d.len.toNat) : d.bufAddr = d.offset ∧ d.bufAddr ≠ 0 := by
  have haddr : d.bufAddr = d.offset := by
    obtain hs | hs := hs <;> simp [DecRegs.bufAddr, hs, hl]
  refine ⟨haddr, fun h0 => ?_⟩
  have hlow : 2 ≤ d.offset.toNat := i.offsetLow (by obtain hs | hs := hs <;> simp [hs])
  rw [← haddr, h0] at hlow
  exact absurd hlow (by decide)

/-- R44, R49: a step of a scan depends on the entry at `buf_addr` at most. -/
theorem DecInv.scanStep_congr (i : DecInv d) (h : d.bufAddr ≠ 0 → b.read d.bufAddr.toNat = b'.read d.bufAddr.toNat) :
    d.scanStep t b = d.scanStep t b' := by
  have hoffset : d.state = .expectSpace ∨ d.state = .expectMark → d.offset.toNat < d.len.toNat →
      b.read d.offset.toNat = b'.read d.offset.toNat := fun hs hl => by
    obtain ⟨haddr, hne⟩ := i.bufAddr_offset hs hl
    exact haddr ▸ h hne
  cases hs : d.state with
  | expectHeader =>
    simp only [DecRegs.scanStep, hs, DecRegs.headerStep]
    split
    · rfl
    · have haddr : d.bufAddr = 1 := by simp [DecRegs.bufAddr, *]
      have hone : (1 : Len).toNat = 1 := mod_lenWidth_1
      rw [haddr, hone] at h
      rw [h (by decide)]
  | expectSpace =>
    simp only [DecRegs.scanStep, hs]
    split
    · rw [DecRegs.spaceStep, DecRegs.spaceStep, hoffset (.inl hs) ‹_›]
    · rfl
  | expectMark =>
    simp only [DecRegs.scanStep, hs, DecRegs.markStep]
    split
    · rfl
    · rw [hoffset (.inr hs) (Nat.lt_of_not_le ‹_›)]
  | _ => simp [DecRegs.scanStep, hs]

/-- R107: a step in which the decoder alone moves. -/
theorem clock_dec_next (hr : s.ports.rst = false) : clock .dec s = .next (s.withDec (decNext s)) :=
  (clock_dec hr).trans (exec_decOp s)

/-- Settles O22: the port shows an entry of the sequence that the step reads, or nothing, and the step depends on no other entry. -/
theorem decoderReadsAtBufAddrOnly : Obligations.DecoderReadsAtBufAddrOnly := by
  unfold Obligations.DecoderReadsAtBufAddrOnly
  intro s b inv hread
  cases hr : s.ports.rst
  case true =>
    exact ⟨fun h => absurd (State.bufAddr_of_rst hr) h, rfl, State.bufAddr_enc, fun _ => State.bufAddr_of_rst hr,
      _, _, clock_of_rst hr, clock_of_rst hr, rfl⟩
  rw [State.bufAddr_dec hr] at hread ⊢
  refine ⟨fun h => (inv.bufAddr_entry h).1, State.bufAddr_dec hr, State.bufAddr_enc, nofun,
    _, _, clock_dec_next hr, clock_dec_next (s := s.withBuf b) hr, ?_⟩
  have hstep : s.dec.scanStep s.tol s.buf = s.dec.scanStep s.tol b := inv.scanStep_congr fun h => (hread h).symm
  rw [State.withDec_dec, State.withDec_dec, decNext, decNext, hstep]
  rfl

end Sys2Proof.Machine
end

section
/-! PROOFS. The commands as runs (R100, R109, R110, R130): DECODE as steps of a scan, what the scan depends on, how it ends. -/

namespace Sys2Proof.Machine

open Sys2Proof.Claims

variable {s : State} {t : Tolerance} {b b' : PulseBuffer} {d d' : DecRegs}

/-! ### The scan that D.START begins -/

/-- R106, R107: without a start the decoder's selected operation is one step of the scan, and at rest nothing. -/
theorem decNext_eq_scanStep (hp : s.ports.decStart = false) : decNext s = s.dec.scanStep s.tol s.buf := by
  cases h : s.dec.busy
  · rw [decNext_hold h hp, DecRegs.scanStep_rest _ _ _ h]
  · rw [decNext, if_pos h]

/-- R100, R107: steps of the decoder, without reset and without a new start, are the run of the scan. -/
theorem runMoves_dec (n : Nat) (hr : s.ports.rst = false) (hp : s.ports.decStart = false) :
    runMoves (List.replicate n .dec) s = .next (s.withDec (DecRegs.scanRun s.tol s.buf n s.dec)) := by
  induction n generalizing s with
  | zero => rfl
  | succ n ih =>
    rw [List.replicate_succ, runMoves, clock_dec_next hr, andThen_next, ih (s := s.withDec (decNext s)) hr hp,
      decNext_eq_scanStep hp, DecRegs.scanRun_succ]
    rfl

/-- R100: DECODE of a decoder at rest is the scan that D.START begins. -/
theorem exec_decode_rest (hb : s.dec.busy = false) (ih : Bool) (len : Len) :
    exec (.decode ih len) s = .next (s.withDec (DecRegs.scanRun s.tol s.buf 67 (.start ih len))) :=
  execDecode_next.2 (if_neg (ne_true_of_eq_false hb))

/-- R130: ENCODE of an encoder at rest is the emission that E.START begins. -/
theorem exec_encode_rest (hb : s.enc.busy = false) (v : Value) (n : BitCount) (k : Khz) :
    exec (.encode v n k) s = .next (State.emitRun 65 (s.withEnc (.start v n k))) :=
  execEncode_next.2 (if_neg (ne_true_of_eq_false hb))

/-- Settles O33: from the registers that START writes, both sides are the run of the unit. -/
theorem commandsAreTheirStepSequences : Obligations.CommandsAreTheirStepSequences := by
  unfold Obligations.CommandsAreTheirStepSequences
  intro s hr
  refine ⟨fun ih len hb hp => ?_, fun v n k hb hp => ?_⟩
  · rw [exec_decode_rest hb]
    exact (runMoves_dec (s := s.withDec (.start ih len)) 67 hr hp).symm
  · rw [exec_encode_rest hb]
    exact (EncInv.runMoves_enc (s := s.withEnc (.start v n k)) 65 (EncInv.start v n k) hr hp).symm

/-! ### How a scan ends -/

/-- R102 to R105: no step of a scan leads to `D_IDLE`. -/
theorem ScanCase.ne_idle (c : ScanCase t b d d') : d'.state ≠ .idle := by
  cases c <;> simp [DecFailure.terminal]

/-- R17, R100: the scan that D.START begins is done when it has room for the steps left. -/
theorem DecRegs.done_scanRun_start {n : Nat} {ih : Bool} {len : Len} (hn : (DecRegs.start ih len).stepsLeft ≤ n) :
    (DecRegs.scanRun t b n (.start ih len)).done = true := by
  have hrest := (DecInv.start ih len).scanRun_rests t b n hn
  have hidle : (DecRegs.scanRun t b n (.start ih len)).state ≠ .idle :=
    DecRegs.scanRun_keeps (P := fun e => e.state ≠ .idle) t b (fun _ _ _ _ c => c.ne_idle) n _ (by cases ih <;> simp [start])
  cases hs : (DecRegs.scanRun t b n (.start ih len)).state <;>
    simp_all [DecRegs.busy, DState.scanning, DecRegs.done, DState.terminal]

/-- R110: the bound of the rule, from D.START on. -/
theorem DecRegs.stepsLeft_start_le_bound (ih : Bool) (len : Len) :
    (DecRegs.start ih len).stepsLeft ≤ min 67 (1 + (len.toNat - 2) + 1) := by
  have htwo : (2 : Len).toNat = 2 := mod_lenWidth_2
  cases ih
  · exact le_rfl
  · simp only [stepsLeft, start, if_true, htwo]
    omega

/-- Settles O35: the steps are the run of the scan, which the bound has room for. -/
theorem decodeEndsWithinTheBound : Obligations.DecodeEndsWithinTheBound := by
  unfold Obligations.DecodeEndsWithinTheBound
  intro s ih len n hs hr hp hn
  refine ⟨_, runMoves_dec n hr hp, ?_⟩
  rw [State.withDec_dec, hs]
  exact DecRegs.done_scanRun_start ((DecRegs.stepsLeft_start_le_bound ih len).trans hn)

/-- R15, R113, R150: what the ports of a decoder in a terminal state show. -/
theorem DecInv.outputs_done (i : DecInv d) (h : d.done = true) :
    (d.outputs.status.toNat ≠ 1 → d.outputs.value = 0 ∧ d.outputs.bitcount = 0 ∧ d.outputs.tag = 0) ∧
    ((d.outputs.status.toNat = 2 ∧ d.outputs.expected = 2400) ∨ (d.outputs.status.toNat = 3 ∧ d.outputs.expected = 600) ∨
      (d.outputs.status.toNat = 4 ∧ d.outputs.expected = 1200) ∨
      ((d.outputs.status.toNat = 1 ∨ d.outputs.status.toNat = 5 ∨ d.outputs.status.toNat = 6) ∧ d.outputs.expected = 0)) := by
  have hexpected := i.noExpected
  refine ⟨fun hst => ?_, ?_⟩
  · have hs : d.state ≠ .success := fun hs => hst (by rw [DecRegs.outputs_status, hs]; rfl)
    obtain ⟨hvalue, hcount⟩ := i.noPartial hs
    exact ⟨hvalue, hcount, if_neg hs⟩
  · rw [DecRegs.outputs_status]
    cases hs : d.state with
    | errHeaderMark => exact .inl ⟨rfl, (i.headerError hs).1⟩
    | errDataSpace => exact .inr (.inl ⟨rfl, (i.spaceError hs).1⟩)
    | errDataMark => exact .inr (.inr (.inl ⟨rfl, (i.markError hs).1⟩))
    | success => exact .inr (.inr (.inr ⟨.inl rfl, hexpected (by simp [hs]) (by simp [hs]) (by simp [hs])⟩))
    | faultBounds => exact .inr (.inr (.inr ⟨.inr (.inl rfl), hexpected (by simp [hs]) (by simp [hs]) (by simp [hs])⟩))
    | faultCapacity => exact .inr (.inr (.inr ⟨.inr (.inr rfl), hexpected (by simp [hs]) (by simp [hs]) (by simp [hs])⟩))
    | _ => simp [DecRegs.done, DState.terminal, hs] at h

/-- Settles O39: the scan is done after 67 steps, and the invariant that it keeps says what the ports then show. -/
theorem failedDecodeShowsNoPartialValue : Obligations.FailedDecodeShowsNoPartialValue := by
  unfold Obligations.FailedDecodeShowsNoPartialValue
  intro s ih len hb
  have hleft := DecRegs.stepsLeft_start_le ih len
  have hdone := DecRegs.done_scanRun_start (t := s.tol) (b := s.buf) hleft
  exact ⟨_, exec_decode_rest hb ih len, (DecInv.start ih len).scanRun_rests _ _ _ hleft, hdone,
    ((DecInv.start ih len).scanRun _ _ _).outputs_done hdone⟩

/-- Settles O23: a scanning state is no terminal state, and outside those nothing is shown. -/
theorem busyDecoderShowsNoResult : Obligations.BusyDecoderShowsNoResult := by
  unfold Obligations.BusyDecoderShowsNoResult
  intro d i hb
  have hscan : d.state.scanning = true := hb
  have hne : ∀ q : DState, q.scanning = false → d.state ≠ q := fun q hq hd => by
    rw [hd, hq] at hscan
    cases hscan
  obtain ⟨hvalue, hcount⟩ := i.noPartial (hne .success rfl)
  have hstate : d.state.terminal = false ∧ d.state.statusCode = 0 := by
    cases hs : d.state <;> simp [hs, DState.scanning] at hscan <;> exact ⟨rfl, rfl⟩
  exact ⟨hstate.1, hstate.2, hvalue, hcount, if_neg (hne .success rfl),
    i.noExpected (hne .errHeaderMark rfl) (hne .errDataSpace rfl) (hne .errDataMark rfl)⟩

/-! ### What a command depends on -/

/-- R27: no step of a scan writes the request. -/
theorem ScanCase.request (c : ScanCase t b d d') : d'.ih = d.ih ∧ d'.len = d.len := by
  cases c <;> simp

/-- R44, R114: the run of a scan depends on no entry but the header mark, where it is checked, and those from index 2 to the end. -/
theorem DecInv.scanRun_congr (n : Nat) (i : DecInv d)
    (h : ∀ j < d.len.toNat, (j = 1 ∧ d.ih = false) ∨ 2 ≤ j → b.read j = b'.read j) :
    DecRegs.scanRun t b n d = DecRegs.scanRun t b' n d := by
  induction n generalizing d with
  | zero => rfl
  | succ n ih =>
    have hstep : d.scanStep t b = d.scanStep t b' := i.scanStep_congr fun hne => by
      obtain ⟨hlen, hentry⟩ := i.bufAddr_entry hne
      exact h _ hlen hentry
    rw [DecRegs.scanRun_succ, DecRegs.scanRun_succ, ← hstep]
    cases hb : d.busy
    · rw [DecRegs.scanStep_rest _ _ _ hb]
      exact ih i h
    · have c := DecRegs.scanStep_cases t b d hb
      obtain ⟨hih, hlen⟩ := c.request
      refine ih (i.scanCase c) ?_
      rwa [hih, hlen]

/-- Settles O37: the scan that D.START begins has the request in its registers. -/
theorem decodeIgnoresTheOtherEntries : Obligations.DecodeIgnoresTheOtherEntries := by
  unfold Obligations.DecodeIgnoresTheOtherEntries
  intro s b ih len hb h
  refine ⟨_, _, exec_decode_rest hb ih len, exec_decode_rest (s := s.withBuf b) hb ih len, ?_⟩
  exact (DecInv.start ih len).scanRun_congr 67 fun j hj hentry => (h j hj hentry).symm

/-- R24: what the run of an emission makes of the encoder's registers depends on them alone. -/
theorem State.emitRun_enc_congr (n : Nat) {s s' : State} (h : s.enc = s'.enc) : (State.emitRun n s).enc = (State.emitRun n s').enc := by
  induction n generalizing s s' with
  | zero => exact h
  | succ n ih =>
    rw [State.emitRun_succ, State.emitRun_succ]
    exact ih (State.emitStep_enc_congr h)

/-- Settles O38: START overwrites every register, so the run starts from the same ones. -/
theorem commandsForgetEarlierOnes : Obligations.CommandsForgetEarlierOnes := by
  unfold Obligations.CommandsForgetEarlierOnes
  intro s s'
  refine ⟨fun ih len hb hb' hbuf htol => ?_, fun v n k hb hb' => ?_⟩
  · refine ⟨_, _, exec_decode_rest hb ih len, exec_decode_rest hb' ih len, ?_⟩
    rw [State.withDec_dec, State.withDec_dec, hbuf, htol]
  · exact ⟨_, _, (EncRegs.start v n k).frameLeft, exec_encode_rest hb v n k, exec_encode_rest hb' v n k,
      State.emitRun_enc_congr 65 rfl, State.txLog_emitRun_start s v n k, State.txLog_emitRun_start s' v n k⟩

/-- Settles O32: both commands look at their unit's busy port first. -/
theorem commandToABusyUnitIsIgnored : Obligations.CommandToABusyUnitIsIgnored := by
  unfold Obligations.CommandToABusyUnitIsIgnored
  exact fun s ih len v n k => ⟨fun hb => execDecode_next.2 (if_pos hb), fun hb => execEncode_next.2 (if_pos hb)⟩

/-! ### The degenerate lengths -/

/-- R114: the function of R109 without a header check and without an entry from index 2 on. -/
theorem decodeFunction_noEntry {seq : List Dur} (h : seq.length ≤ 2) : decodeFunction t seq true = .success 0 0 .milestag := by
  rw [decodeFunction_true, List.drop_eq_nil_of_le h, decodePairs_nil]

/-- R114: the function of a sequence of two entries with the header checked. -/
theorem decodeFunction_two (g h : Dur) : decodeFunction t [g, h] false =
    if matchDuration t h 2400#Config.durWidth then .success 0 0 .milestag else .headerMarkError .headerMarkDuration := rfl

/-- R114: the function of a sequence of three entries, the header accepted or skipped. -/
theorem decodeFunction_three {ih : Bool} {g h e : Dur} (hh : ih = false → matchDuration t h 2400#Config.durWidth = true) :
    decodeFunction t [g, h, e] ih =
      if matchDuration t e 600#Config.durWidth then .boundsFault else .dataSpaceError .interBitSpaceDuration := by
  cases ih
  · rw [decodeFunction_header (hh rfl)]
    rfl
  · rfl

/-- Settles O36: DECODE computes the function of R109, whose loop runs over no entry or over one. -/
theorem degenerateLengths : Obligations.DegenerateLengths := by
  unfold Obligations.DegenerateLengths
  intro s len hb
  have hrun : ∀ ih, ∃ t, exec (.decode ih len) s = .next t ∧
      t.dec.result = some (decodeFunction s.tol (s.buf.sequence len.toNat) ih) := fun ih => by
    obtain ⟨t, ht, hresult, -⟩ := decodeComputesTheFunction s ih len hb
    exact ⟨t, ht, hresult⟩
  refine ⟨fun hl => ?_, fun hl => ?_, fun hl => ?_, fun ih hl hh => ?_⟩
  · obtain ⟨t, ht, hresult⟩ := hrun false
    exact ⟨t, ht, hresult.trans (congrArg some (decodeFunction_short (by simpa using hl)))⟩
  · obtain ⟨t, ht, hresult⟩ := hrun true
    exact ⟨t, ht, hresult.trans (congrArg some (decodeFunction_noEntry (by simpa using hl)))⟩
  · obtain ⟨t, ht, hresult⟩ := hrun false
    rw [hl] at hresult
    refine ⟨t, ht, fun hm => ?_, fun hm => ?_⟩
    · exact hresult.trans (congrArg some ((decodeFunction_two _ _).trans (if_pos ((takes_hdr_iff _ _).2 hm))))
    · exact hresult.trans (congrArg some ((decodeFunction_two _ _).trans (if_neg (mt (takes_hdr_iff _ _).1 hm))))
  · obtain ⟨t, ht, hresult⟩ := hrun ih
    rw [hl] at hresult
    have hthree := decodeFunction_three (t := s.tol) (g := s.buf.read 0) (e := s.buf.read 2)
      fun hih => (takes_hdr_iff _ _).2 (hh hih)
    refine ⟨t, ht, fun hm => ?_, fun hm => ?_⟩
    · exact hresult.trans (congrArg some (hthree.trans (if_pos ((takes_sp_iff _ _).2 hm))))
    · exact hresult.trans (congrArg some (hthree.trans (if_neg (mt (takes_sp_iff _ _).1 hm))))

end Sys2Proof.Machine
end

section
/-! PROOFS. The matcher (R91 to R95): MATCH as an operation, whole-numbered edges, and the consequences of the tolerance value. -/

namespace Sys2Proof.Machine

open Sys2Proof.Claims

variable {t : Tolerance}

/-- Settles O10: the answer recorded is MATCH's, which is the inequality. -/
theorem matchAnswersTheInequality : Obligations.MatchAnswersTheInequality := by
  unfold Obligations.MatchAnswersTheInequality
  exact fun s m nom => ⟨matchDuration s.tol m nom, rfl, matchDuration_iff_within s.tol m nom⟩

/-- Settles O12: the edges are `nom - d` and `nom + d`, and MATCH holds exactly between them. -/
theorem wholeEdgesMatchAndOneBeyondDoesNot : Obligations.WholeEdgesMatchAndOneBeyondDoesNot := by
  unfold Obligations.WholeEdgesMatchAndOneBeyondDoesNot
  intro t nom d ht hw
  have hlo := windowLo_add_of_whole ht hw
  have hhi := windowHi_of_whole ht hw
  simp only [← Bool.not_eq_true, matchDuration_iff_window ht]
  refine ⟨fun m hm => ?_, fun m hm => ?_, fun m hm => ?_, fun m hm => ?_⟩ <;> omega

/-- R95: 600 is within a `ONE` from one half on. -/
theorem within_600_1200_iff : Within t 600 1200 ↔ t.den ≤ 2 * t.num := by
  have habs : ((600 : ℕ) - (1200 : ℕ) : ℤ).natAbs = 600 := rfl
  rw [Within, habs]
  omega

/-- R95: 900 is within a `ONE` from one quarter on. -/
theorem within_900_1200_iff : Within t 900 1200 ↔ t.den ≤ 4 * t.num := by
  have habs : ((900 : ℕ) - (1200 : ℕ) : ℤ).natAbs = 300 := rfl
  rw [Within, habs]
  omega

/-- R95: 900 is within a `ZERO` from one half on. -/
theorem within_900_600_iff : Within t 900 600 ↔ t.den ≤ 2 * t.num := by
  have habs : ((900 : ℕ) - (600 : ℕ) : ℤ).natAbs = 300 := rfl
  rw [Within, habs]
  omega

/-- R95: at one quarter a `ONE` is 900 to 1500 and a `ZERO` 450 to 750. -/
theorem within_quarter (ht : t.Valid) (hq : 4 * t.num = t.den) (m : ℕ) :
    (Within t m 1200 ↔ 900 ≤ m ∧ m ≤ 1500) ∧ (Within t m 600 ↔ 450 ≤ m ∧ m ≤ 750) := by
  have hone : 1200 * t.num = t.den * 300 := by omega
  have hzero : 600 * t.num = t.den * 150 := by omega
  have hlo1 := windowLo_add_of_whole ht hone
  have hlo0 := windowLo_add_of_whole ht hzero
  rw [within_iff_window ht, within_iff_window ht, windowHi_of_whole ht hone, windowHi_of_whole ht hzero]
  omega

/-- R95: at the tolerance 0 a duration matches itself only. -/
theorem matchDuration_exact (ht : t.Valid) (h0 : t.num = 0) (m nom : Dur) : matchDuration t m nom = true ↔ m = nom := by
  have hd := ht.den_pos
  rw [matchDuration_iff, h0, Nat.zero_mul, Nat.le_zero, Nat.le_zero, Nat.mul_eq_zero, Nat.mul_eq_zero, ← BitVec.toNat_inj]
  omega

/-- R93, R95: below one third no duration is within both marks. -/
theorem not_within_both (ht : t.Valid) (h : 3 * t.num < t.den) (m : Dur) : ¬ (Within t m.toNat 1200 ∧ Within t m.toNat 600) := by
  have hover := (exists_within_both_iff ht (a := 600) (by decide) (mod_durWidth_1200.ge.trans_lt Config.oneMark.isLt)).trans
    (windowLo_1200_le_windowHi_600_iff ht)
  exact fun hm => (hover.1 ⟨m, hm⟩).not_gt h

/-- Settles O14: each row is by the inequality at its duration, and by the windows where the row is about a range. -/
theorem toleranceConsequences : Obligations.ToleranceConsequences := by
  unfold Obligations.ToleranceConsequences
  intro t ht
  refine ⟨fun nom _ => matchDuration_self t nom, zeroMark_not_one, fun h => ?_, fun h m hm => ?_, fun h => ?_, fun h => ?_,
    matchDuration_exact ht⟩
  · exact classifyMark_of_one (within_600_1200_iff.2 h)
  · exact not_within_both ht h m ⟨(matchDuration_oneMark_iff t m).1 hm.1, (matchDuration_zeroMark_iff t m).1 hm.2⟩
  · exact classifyMark_of_neither (mt within_900_1200_iff.1 (by omega)) (mt within_900_600_iff.1 (by omega))
  · have hq := within_quarter ht h
    refine ⟨classifyMark_of_one ((hq 900).1.2 (by omega)),
      classifyMark_of_zero (mt (hq 750).1.1 (by omega)) ((hq 750).2.2 (by omega)), fun m hlo hhi => ?_⟩
    exact classifyMark_of_neither (mt (hq _).1.1 (by omega)) (mt (hq _).2.1 (by omega))

end Sys2Proof.Machine
end

section
/-! PROOFS. The encoder's operations (R131 to R135): its table of steps, what it leaves alone (R27), and the stream as what was offered
(R50). -/

namespace Sys2Proof.Machine

open Sys2Proof.Claims

variable {s s' t : State} {m : Moves} {i : Instr}

/-! ### The table of steps -/

/-- R22: `enc_busy` is 0 exactly in the rest states. -/
theorem encRests_iff : EncRests s ↔ s.enc.busy = false := by
  cases h : s.enc.state <;> simp [EncRests, EncRegs.busy, EState.emitting, h]

/-- R135: the selection in an emitting state is by the state; the start input does not enter. -/
theorem selectEnc_emitting {q : EState} (h : q.emitting = true) (start start' : Bool) : selectEnc q start = selectEnc q start' := by
  cases q <;> simp [EState.emitting] at h <;> rfl

/-- R131: E.START leads to the header mark or to the range fault. -/
theorem EncRegs.start_state (v : Value) (n : BitCount) (k : Khz) :
    (EncRegs.start v n k).state = .emitHeader ∨ (EncRegs.start v n k).state = .faultRange := by
  rcases Nat.lt_or_ge 32 n.toNat with hn | hn
  · exact .inr (by rw [EncRegs.start_refused hn])
  · exact .inl (by rw [EncRegs.start_accepted hn])

theorem encNext_start (h : s.enc.busy = false) (hp : s.ports.encStart = true) :
    encNext s = s.withEnc (EncRegs.start s.ports.encValue s.ports.encBitcount s.ports.encFreqKhz) := by
  simp [encNext, h, hp]

theorem encNext_hold (h : s.enc.busy = false) (hp : s.ports.encStart = false) : encNext s = s := by
  simp [encNext, h, hp]

/-- R135: while emitting, the selected operation is one step of the emission. -/
theorem encNext_emitCase (h : s.enc.busy = true) : EmitCase s (encNext s) := by
  rw [encNext, if_pos h]
  exact State.emitStep_cases s h

/-- R132: the states that E.HEADER leads to. -/
theorem EmitCase.state_of_header (c : EmitCase s s') (h : s.enc.state = .emitHeader) :
    s'.enc.state = .emitSpace ∨ s'.enc.state = .done := by
  cases c with
  | header => exact .inl rfl
  | headerOnly => exact .inr rfl
  | _ => simp_all

/-- R133: the state that E.SPACE leads to. -/
theorem EmitCase.state_of_space (c : EmitCase s s') (h : s.enc.state = .emitSpace) : s'.enc.state = .emitMark := by
  cases c with
  | space => rfl
  | _ => simp_all

/-- R134: the states that E.MARK leads to. -/
theorem EmitCase.state_of_mark (c : EmitCase s s') (h : s.enc.state = .emitMark) :
    s'.enc.state = .emitSpace ∨ s'.enc.state = .done := by
  cases c with
  | mark => exact .inl rfl
  | lastMark => exact .inr rfl
  | _ => simp_all

/-- Settles O8: with a bit to send the selected operation gives `encNext`; the rows of a rest state are those of the start input, the rows
of an emitting state those of the cases of an emitting step. -/
theorem encoderStepTable : Obligations.EncoderStepTable := by
  unfold Obligations.EncoderStepTable
  intro s hbit
  have hrun : exec s.encOp s = .next (encNext s) := exec_encOp_next fun ⟨hs, h0⟩ => by
    have hz := remaining_eq_zero_iff.1 h0
    have := hbit hs
    omega
  refine ⟨_, hrun, fun hb b => selectEnc_emitting hb _ _, fun hr hp => ?_, fun hr hp => ?_, fun hs => ?_, fun hs => ?_, fun hs => ?_⟩
  · have hb : s.enc.busy = false := encRests_iff.1 hr
    rw [State.encOp_rest hb, if_pos hp, encNext_start hb hp]
    exact ⟨rfl, EncRegs.start_state _ _ _⟩
  · have hb : s.enc.busy = false := encRests_iff.1 hr
    rw [State.encOp_rest hb, if_neg (ne_true_of_eq_false hp)]
    exact ⟨rfl, encNext_hold hb hp, fun m => State.tx_rest hb⟩
  · exact ⟨by rw [State.encOp, hs, selectEnc], (encNext_emitCase (by rw [EncRegs.busy, hs]; rfl)).state_of_header hs⟩
  · exact ⟨by rw [State.encOp, hs, selectEnc], (encNext_emitCase (by rw [EncRegs.busy, hs]; rfl)).state_of_space hs⟩
  · exact ⟨by rw [State.encOp, hs, selectEnc], (encNext_emitCase (by rw [EncRegs.busy, hs]; rfl)).state_of_mark hs⟩

/-- Settles O24: the operation runs at rest and writes the registers of R131, whose flags are those of an accepted or of a refused
request. -/
theorem eStartOverwritesTheEncoder : Obligations.EStartOverwritesTheEncoder := by
  unfold Obligations.EStartOverwritesTheEncoder
  intro s hr hp
  have hb : s.enc.busy = false := encRests_iff.1 hr
  refine ⟨_, execEStart_next.2 ⟨⟨hb, hp⟩, rfl⟩, rfl, fun hn => ?_, fun hn => ?_, fun m => State.tx_rest hb⟩
  · rw [EncRegs.start_accepted hn]
    exact ⟨rfl, rfl, rfl⟩
  · rw [EncRegs.start_refused hn]
    exact ⟨rfl, rfl, rfl⟩

/-- Settles O28: E.HOLD runs at rest, where nothing is offered. -/
theorem eHoldChangesNothing : Obligations.EHoldChangesNothing := by
  unfold Obligations.EHoldChangesNothing
  intro s hr hp
  have hb : s.enc.busy = false := encRests_iff.1 hr
  exact ⟨execEHold_next.2 ⟨⟨hb, hp⟩, rfl⟩, fun m => State.tx_rest hb⟩

/-- Settles O31: each symbol's operation is the emission of its entry. -/
theorem wireSymbolsEmitTheirEntries : Obligations.WireSymbolsEmitTheirEntries := by
  unfold Obligations.WireSymbolsEmitTheirEntries
  exact fun s => ⟨⟨exec_symbol .hdr s, rfl⟩, ⟨exec_symbol .sp s, rfl⟩, ⟨exec_symbol .one s, rfl⟩, exec_symbol .zero s, rfl⟩

/-! ### What is left alone -/

/-- R60: the wire symbols' operations. -/
theorem mem_wireSymbols_iff : i ∈ wireSymbols ↔ ∃ x : Symbol, i = x.instr := by
  constructor
  · intro hi
    cases i with
    | hdr => exact ⟨.hdr, rfl⟩
    | sp => exact ⟨.sp, rfl⟩
    | one => exact ⟨.one, rfl⟩
    | zero => exact ⟨.zero, rfl⟩
    | _ => simp [wireSymbols] at hi
  · rintro ⟨x, rfl⟩
    cases x <;> simp [Symbol.instr, wireSymbols]

/-- R10, R27: an encoder operation, ENCODE or a wire symbol writes the encoder's registers and the stream, and nothing else. -/
theorem exec_encOperation_eq (hi : i ∈ encMicroOps ∨ i ∈ wireSymbols ∨ ∃ v n k, i = .encode v n k) (h : exec i s = .next t) :
    t = { s with enc := t.enc, txLog := t.txLog } := by
  obtain hi | hi | ⟨v, n, k, rfl⟩ := hi
  · obtain ⟨-, rfl⟩ := exec_encMicroOp_next hi h
    obtain ⟨hdec, htol, hports, hbuf, hmatch, hscript⟩ := encNext_frame s
    rw [← hdec, ← htol, ← hports, ← hbuf, ← hmatch, ← hscript]
  · obtain ⟨x, rfl⟩ := mem_wireSymbols_iff.1 hi
    cases (exec_symbol x s).symm.trans h
    rfl
  · obtain rfl := execEncode_next.1 h
    split
    · rfl
    · exact State.emitRun_eq 65 _

/-- R27: the columns of the encoder's micro-operations. -/
theorem exec_encMicroOp_keeps (hi : i ∈ encMicroOps) (h : exec i s = .next t) (hstart : i ≠ .eStart) :
    t.enc.value = s.enc.value ∧ t.enc.freq = s.enc.freq ∧ (i ≠ .eMark → t.enc.remaining = s.enc.remaining) := by
  cases i with
  | eStart => exact absurd rfl hstart
  | eHeader =>
    obtain ⟨-, rfl⟩ := execEHeader_next.1 h
    exact ⟨rfl, rfl, fun _ => rfl⟩
  | eSpace =>
    obtain ⟨-, rfl⟩ := execESpace_next.1 h
    exact ⟨rfl, rfl, fun _ => rfl⟩
  | eMark =>
    obtain ⟨-, rfl⟩ := execEMark_next.1 h
    exact ⟨rfl, rfl, fun hmark => absurd rfl hmark⟩
  | eHold =>
    obtain ⟨-, rfl⟩ := execEHold_next.1 h
    exact ⟨rfl, rfl, fun _ => rfl⟩
  | _ => simp [encMicroOps] at hi

/-- Settles O54: what is neither the encoder's registers nor the stream is as it was, and the stream grows by what is offered. -/
theorem encoderOperationsFrame : Obligations.EncoderOperationsFrame := by
  unfold Obligations.EncoderOperationsFrame
  intro s t i hi h
  obtain ⟨e, log, rfl⟩ : ∃ e log, t = { s with enc := e, txLog := log } := ⟨_, _, exec_encOperation_eq hi h⟩
  refine ⟨rfl, fun _ => ⟨rfl, rfl⟩, rfl, rfl, rfl, rfl, ⟨_, (exec_txLog h).symm⟩, fun hop hstart => ?_, fun hop hstart hmark => ?_, fun hsym => ?_⟩
  · obtain ⟨hvalue, hfreq, -⟩ := exec_encMicroOp_keeps hop h hstart
    exact ⟨hvalue, hfreq⟩
  · obtain ⟨-, -, hrem⟩ := exec_encMicroOp_keeps hop h hstart
    exact hrem hmark
  · obtain ⟨x, rfl⟩ := mem_wireSymbols_iff.1 hsym
    cases (exec_symbol x s).symm.trans h
    rfl

/-! ### The stream -/

/-- R22, R50: an emitting step shows `tx_last` = 1 exactly when it reaches `E_DONE`. -/
theorem EmitCase.last_iff_done (c : EmitCase s s') {o : Offer} (ho : s.enc.offer = some o) :
    o.last = true ↔ s'.enc.state = .done := by
  cases c with
  | headerOnly hs hr => rw [EncRegs.offer_emitHeader hs] at ho; cases ho; simp [hr]
  | header hs hr => rw [EncRegs.offer_emitHeader hs] at ho; cases ho; simpa using hr
  | space hs => rw [EncRegs.offer_emitSpace hs] at ho; cases ho; simp
  | lastMark hs hr => rw [EncRegs.offer_emitMark hs] at ho; cases ho; simp [hr]
  | mark hs hr => rw [EncRegs.offer_emitMark hs] at ho; cases ho; simpa using hr

/-- R27: what an emitting step does is the same whatever the decoder's registers hold. -/
theorem State.emitStep_withDec (s : State) (d : DecRegs) : (s.withDec d).emitStep = s.emitStep.withDec d := by
  cases hs : s.enc.state <;> simp only [State.emitStep, State.withDec_enc, hs] <;> rfl

/-- R27, R165: what the encoder's selected operation does is the same whatever the decoder's registers hold. -/
theorem encNext_withDec (s : State) (d : DecRegs) : encNext (s.withDec d) = (encNext s).withDec d := by
  cases hb : s.enc.busy
  · cases hp : s.ports.encStart
    · rw [encNext_hold hb hp]
      exact encNext_hold (s := s.withDec d) hb hp
    · rw [encNext_start hb hp]
      exact encNext_start (s := s.withDec d) hb hp
  · rw [encNext, encNext, State.withDec_enc, if_pos hb, if_pos hb, State.emitStep_withDec]

/-- R27, R165: so it is for its outcome. -/
theorem exec_encOp_withDec (s : State) (d : DecRegs) : exec (s.withDec d).encOp (s.withDec d) =
    andThen (exec s.encOp s) fun u => .next (u.withDec d) := by
  by_cases h : s.enc.state = .emitMark ∧ s.enc.remaining = 0
  · rw [exec_encOp_fault h]
    exact exec_encOp_fault (s := s.withDec d) h
  · rw [exec_encOp_next h, andThen_next, ← encNext_withDec]
    exact exec_encOp_next (s := s.withDec d) h

/-- R165: a step of both units is one of the encoder with the decoder's registers written besides. -/
theorem clock_both_eq (hr : s.ports.rst = false) :
    clock .both s = andThen (clock .enc s) fun u => .next (u.withDec (decNext s)) := by
  rw [clock_both hr, exec_decOp, andThen_next, exec_encOp_withDec, clock_enc hr]

/-- R135: the encoder's registers after a step in which it moves. -/
theorem clock_enc_regs (hr : s.ports.rst = false) (hm : m ≠ .dec) (h : clock m s = .next t) : t.enc = (encNext s).enc := by
  have henc : ∀ {u}, clock .enc s = .next u → u.enc = (encNext s).enc := fun {u} hu => by
    rw [clock_enc hr, exec_encOp] at hu
    split at hu
    · cases hu
    · cases hu; rfl
  cases m with
  | dec => exact absurd rfl hm
  | enc => exact henc h
  | both =>
    rw [clock_both_eq hr, andThen_eq_next] at h
    obtain ⟨u, hu, ht⟩ := h
    cases ht
    exact henc (u := u) hu

/-- R22, R180: a step that offers an entry is no reset step, and the encoder moves in it and is busy. -/
theorem State.offer_eq_some {o : Offer} (h : s.offer m = some o) :
    s.ports.rst = false ∧ m ≠ .dec ∧ s.enc.offer = some o ∧ s.enc.busy = true := by
  have hr : s.ports.rst = false := Bool.eq_false_of_not_eq_true fun hr => by
    rw [State.offer_of_rst hr] at h
    cases h
  have hm : m ≠ .dec := fun hm => by
    rw [hm, State.offer_dec] at h
    cases h
  rw [State.offer_of_enc hr hm] at h
  refine ⟨hr, hm, h, Bool.eq_true_of_not_eq_false fun hb => ?_⟩
  rw [EncRegs.offer_rest hb] at h
  cases h

/-- Settles O29: the stream grows by the entry offered, which the ports show, and an entry is the last one when its step ends the
emission. -/
theorem streamGrowsByTheOfferedEntry : Obligations.StreamGrowsByTheOfferedEntry := by
  unfold Obligations.StreamGrowsByTheOfferedEntry
  intro s t m h
  refine ⟨fun hr => ?_, fun hm => hm ▸ State.tx_dec, fun hr hv => ?_, fun hv => ?_, rfl, rfl⟩
  · cases (clock_of_rst hr).symm.trans h
    exact ⟨State.tx_of_rst hr, rfl⟩
  · rw [State.tx] at hv
    rw [clock_txLog hr h]
    cases ho : s.offer m with
    | none => simp
    | some o => rw [ho] at hv; cases hv
  · rw [State.tx] at hv ⊢
    cases ho : s.offer m with
    | none => rw [ho] at hv; cases hv
    | some o =>
      obtain ⟨hr, hm, hoffer, hbusy⟩ := State.offer_eq_some ho
      refine ⟨o.entry, by rw [clock_txLog hr h, ho]; rfl, rfl, rfl, ?_⟩
      rw [clock_enc_regs hr hm h]
      exact (encNext_emitCase hbusy).last_iff_done hoffer

/-- R50, R180: a step of the units, with reset and without. -/
theorem clock_stream (h : clock m s = .next t) :
    (s.ports.rst = true → (s.offer m).toList = [] ∧ t.txLog = []) ∧
      (s.ports.rst = false → t.txLog = s.txLog ++ (s.offer m).toList.map Offer.entry) := by
  refine ⟨fun hr => ?_, fun hr => clock_txLog hr h⟩
  cases (clock_of_rst hr).symm.trans h
  exact ⟨by rw [State.offer_of_rst hr]; rfl, rfl⟩

/-- R50, R63, R180: a word given by the host, with reset and without. -/
theorem runWord_stream {w : HostWord} (h : runWord w s = .next t) :
    (s.ports.rst = true → t.txLog = []) ∧
      (s.ports.rst = false → ∃ i, decodeWord w = .ok i ∧ t.txLog = s.txLog ++ (s.offersOf i).map Offer.entry) := by
  refine ⟨fun hr => ?_, fun hr => ?_⟩
  · cases (runWord_of_rst hr).symm.trans h
    rfl
  · cases hw : decodeWord w with
    | error => simp [runWord, hr, hw] at h
    | ok i =>
      rw [runWord_of_decodeWord hr hw] at h
      exact ⟨i, rfl, exec_txLog h⟩

/-- R41: new contents of the buffer leave the stream. -/
theorem refill_txLog {b : PulseBuffer} (h : refill s b = .next t) : t.txLog = s.txLog := by
  unfold refill at h
  split at h
  · cases h
  · cases h; rfl

/-- R41: a store leaves the stream. -/
theorem act_store_txLog {j : Len} {d : Dur} (h : act (.store j d) s = .next t) : t.txLog = s.txLog := by
  simp only [act] at h
  split at h
  · cases h
  · cases h; rfl

/-- Settles O30: by the host's next action: a step of the units, a word, or a write of the buffer, which offers nothing. -/
theorem streamHoldsWhatWasOffered : Obligations.StreamHoldsWhatWasOffered := by
  unfold Obligations.StreamHoldsWhatWasOffered
  intro s t h
  have hwrite : s.resets = false → s.offers = [] → t.txLog = s.txLog →
      (s.resets = true → s.offers = [] ∧ t.txLog = []) ∧ (s.resets = false → t.txLog = s.txLog ++ s.offers.map Offer.entry) :=
    fun hr ho ht => ⟨fun hr' => (Bool.false_ne_true (hr.symm.trans hr')).elim, fun _ => by simp [ho, ht]⟩
  cases hs : s.script with
  | nil =>
    rw [step_of_nil hs] at h
    simp only [State.resets, State.offers, hs]
    exact clock_stream h
  | cons a rest =>
    rw [step_of_cons hs] at h
    cases a with
    | drive p m =>
      simp only [State.resets, State.offers, hs]
      exact clock_stream (s := (s.withScript rest).withPorts p) h
    | word w =>
      obtain ⟨hreset, hrun⟩ := runWord_stream h
      simp only [State.resets, State.offers, hs]
      refine ⟨fun hr => ⟨if_pos hr, hreset hr⟩, fun hr => ?_⟩
      obtain ⟨i, hw, ht⟩ := hrun hr
      rw [if_neg (ne_true_of_eq_false hr), hw, ht, State.offersOf_congr i (s := s.withScript rest) (s' := s) rfl]
      rfl
    | store j d => exact hwrite (by rw [State.resets, hs]) (by rw [State.offers, hs]) (act_store_txLog (s := s.withScript rest) h)
    | buf es => exact hwrite (by rw [State.resets, hs]) (by rw [State.offers, hs]) (refill_txLog (s := s.withScript rest) h)
    | capture g => exact hwrite (by rw [State.resets, hs]) (by rw [State.offers, hs]) (refill_txLog (s := s.withScript rest) h)

end Sys2Proof.Machine
end

section
/-! PROOFS. The two units as agents (R165, R186, R187): the order of their steps, and the inputs that a busy unit does not look at. -/

namespace Sys2Proof.Machine

open Sys2Proof.Claims

variable {s : State} {p : Inputs}

/-! ### Interleavings -/

/-- The state after a step in which the decoder moves (R107). -/
def decMove (s : State) : State := s.withDec (decNext s)

/-- The steps of a schedule in order: those of the decoder, which always give a next state, before those of the encoder. -/
def decThenEnc (d e : Nat) (s : State) : Host.Outcome State Fault Refusal := runMoves (List.replicate e .enc) (decMove^[d] s)

theorem clock_dec_eq_decMove (hr : s.ports.rst = false) : clock .dec s = .next (decMove s) := clock_dec_next hr

/-- R27, R165: a step of the encoder leaves what the decoder does next. -/
theorem encNext_decMove (s : State) : decMove (encNext s) = encNext (decMove s) := by
  obtain ⟨hdec, htol, hports, hbuf, -, -⟩ := encNext_frame s
  rw [decMove, decMove, encNext_withDec, decNext, decNext, hdec, htol, hports, hbuf]

/-- R165: a step of the encoder before one of the decoder is a step of the encoder after it. -/
theorem clock_enc_decMove (hr : s.ports.rst = false) (f : State → Host.Outcome State Fault Refusal) :
    andThen (clock .enc s) (fun u => f (decMove u)) = andThen (clock .enc (decMove s)) f := by
  rw [clock_enc hr, clock_enc (s := decMove s) hr]
  by_cases h : s.enc.state = .emitMark ∧ s.enc.remaining = 0
  · rw [exec_encOp_fault h, exec_encOp_fault (s := decMove s) h]
    rfl
  · rw [exec_encOp_next h, exec_encOp_next (s := decMove s) h, andThen_next, andThen_next, encNext_decMove]

/-- R165: the same for any number of steps of the decoder. -/
theorem clock_enc_decMove_iterate (d : Nat) (hr : s.ports.rst = false) (f : State → Host.Outcome State Fault Refusal) :
    andThen (clock .enc s) (fun u => f (decMove^[d] u)) = andThen (clock .enc (decMove^[d] s)) f := by
  induction d generalizing s with
  | zero => rfl
  | succ d ih =>
    simp only [Function.iterate_succ_apply]
    rw [clock_enc_decMove hr fun u => f (decMove^[d] u)]
    exact ih (s := decMove s) hr

/-- R27: a step of the encoder leaves the input ports. -/
theorem encNext_ports (s : State) : (encNext s).ports = s.ports := by
  obtain ⟨-, -, hports, -⟩ := encNext_frame s
  exact hports

/-- R165: without reset, what follows a step of the encoder need only be known where no reset is asked for. -/
theorem andThen_clock_enc_congr (hr : s.ports.rst = false) {f g : State → Host.Outcome State Fault Refusal}
    (h : ∀ u : State, u.ports.rst = false → f u = g u) : andThen (clock .enc s) f = andThen (clock .enc s) g := by
  rw [clock_enc hr, exec_encOp]
  split
  · rfl
  · exact h (encNext s) ((congrArg Inputs.rst (encNext_ports s)).trans hr)

/-- R165: a step of the encoder in front of a schedule in order. -/
theorem clock_enc_decThenEnc (d e : Nat) (hr : s.ports.rst = false) :
    andThen (clock .enc s) (decThenEnc d e) = decThenEnc d (e + 1) s :=
  clock_enc_decMove_iterate d hr _

/-- R165: every schedule without reset ends as its steps in order do. -/
theorem runMoves_eq_decThenEnc (ms : List Moves) (hr : s.ports.rst = false) :
    runMoves ms s = decThenEnc (decSteps ms) (encSteps ms) s := by
  induction ms generalizing s with
  | nil => rfl
  | cons m ms ih =>
    cases m with
    | dec => exact (congrArg (andThen · (runMoves ms)) (clock_dec_eq_decMove hr)).trans (ih (s := decMove s) hr)
    | enc => exact (andThen_clock_enc_congr hr fun _ => ih).trans (clock_enc_decThenEnc _ _ hr)
    | both =>
      have hboth : clock .both s = clock .enc (decMove s) := by
        rw [clock_both hr, exec_decOp, andThen_next]
        exact (clock_enc (s := decMove s) hr).symm
      rw [runMoves, hboth]
      exact (andThen_clock_enc_congr (s := decMove s) hr fun _ => ih).trans (clock_enc_decThenEnc (s := decMove s) _ _ hr)

/-- Settles O47: both schedules end as the same number of decoder steps and then of encoder steps. -/
theorem interleavingsAgree : Obligations.InterleavingsAgree := by
  unfold Obligations.InterleavingsAgree
  intro s ms ms' hr hdec henc
  rw [runMoves_eq_decThenEnc ms hr, runMoves_eq_decThenEnc ms' hr, hdec, henc]

/-! ### Command inputs -/

/-- R187: a busy decoder does not look at its command inputs. -/
theorem decNext_withPorts_of_busy (hb : s.dec.busy = true) : decNext (s.withPorts p) = decNext s := by
  rw [decNext, decNext, if_pos hb, State.withPorts_dec, if_pos hb]
  rfl

/-- R18: of the ports the decoder looks at its own inputs. -/
theorem decNext_withPorts_of_eq (h1 : p.decStart = s.ports.decStart) (h2 : p.decIgnoreHeader = s.ports.decIgnoreHeader)
    (h3 : p.decSeqLen = s.ports.decSeqLen) : decNext (s.withPorts p) = decNext s := by
  rw [decNext, decNext, State.withPorts_ports, h1, h2, h3]
  rfl

/-- R27: an emitting step does not look at the ports. -/
theorem State.emitStep_withPorts (s : State) (p : Inputs) : (s.withPorts p).emitStep = s.emitStep.withPorts p := by
  cases hs : s.enc.state <;> simp only [State.emitStep, State.withPorts_enc, hs] <;> rfl

/-- R187: a busy encoder does not look at its command inputs. -/
theorem encNext_withPorts_of_busy (hb : s.enc.busy = true) : encNext (s.withPorts p) = (encNext s).withPorts p := by
  rw [encNext, encNext, if_pos hb, State.withPorts_enc, if_pos hb, State.emitStep_withPorts]

/-- R21: of the ports the encoder looks at its own inputs. -/
theorem encNext_withPorts_of_eq (h1 : p.encStart = s.ports.encStart) (h2 : p.encValue = s.ports.encValue)
    (h3 : p.encBitcount = s.ports.encBitcount) (h4 : p.encFreqKhz = s.ports.encFreqKhz) :
    encNext (s.withPorts p) = (encNext s).withPorts p := by
  cases hb : s.enc.busy
  · cases hp : s.ports.encStart
    · rw [encNext_hold hb hp]
      exact encNext_hold (s := s.withPorts p) hb (h1.trans hp)
    · rw [encNext_start hb hp, ← h2, ← h3, ← h4]
      exact encNext_start (s := s.withPorts p) hb (h1.trans hp)
  · exact encNext_withPorts_of_busy hb

/-- R187: where neither unit looks at the inputs that differ, a step is the same, the inputs themselves apart. -/
theorem clock_withPorts (hr : s.ports.rst = false) (hp : p.rst = false) (hdec : decNext (s.withPorts p) = decNext s)
    (henc : encNext (s.withPorts p) = (encNext s).withPorts p) (m : Moves) :
    clock m (s.withPorts p) = andThen (clock m s) fun t => .next (t.withPorts p) := by
  have hrun : clock .enc (s.withPorts p) = andThen (clock .enc s) fun t => .next (t.withPorts p) := by
    rw [clock_enc hr, clock_enc (s := s.withPorts p) hp]
    by_cases h : s.enc.state = .emitMark ∧ s.enc.remaining = 0
    · rw [exec_encOp_fault h, exec_encOp_fault (s := s.withPorts p) h]
      rfl
    · rw [exec_encOp_next h, exec_encOp_next (s := s.withPorts p) h, henc]
      rfl
  cases m with
  | dec =>
    rw [clock_dec_next hr, clock_dec_next (s := s.withPorts p) hp, hdec]
    rfl
  | enc => exact hrun
  | both =>
    rw [clock_both_eq hr, clock_both_eq (s := s.withPorts p) hp, hrun, hdec]
    cases clock .enc s <;> rfl

/-- Settles O48: the busy unit looks at none of the inputs that differ, and the other unit's inputs do not differ. -/
theorem busyUnitsIgnoreTheirCommandInputs : Obligations.BusyUnitsIgnoreTheirCommandInputs := by
  unfold Obligations.BusyUnitsIgnoreTheirCommandInputs
  intro s p m hr hp
  refine ⟨fun hb h1 h2 h3 h4 => ?_, fun hb h1 h2 h3 => ?_⟩
  · exact clock_withPorts hr hp (decNext_withPorts_of_busy hb) (encNext_withPorts_of_eq h1 h2 h3 h4) m
  · exact clock_withPorts hr hp (decNext_withPorts_of_eq h1 h2 h3) (encNext_withPorts_of_busy hb) m

end Sys2Proof.Machine
end
